-- ==== Sys2Proof/Word.lean ====
section
/-! DEFINITION. The one word type of the core: the byte (R10, R16, R37). -/

namespace Sys2Proof

/-- A byte, 0 to 255, unsigned, bit 0 the least significant (R10). Every register, the `pc`, every memory cell and
every operand of this hardware is one byte (R16, R21, R37, R42); its `+` and `-` wrap modulo 256, which is the
`wrap8` of R10 and R48. -/
abbrev Byte := BitVec 8

/-- The name of one of the eight registers `x[0]` to `x[7]` (R16). -/
abbrev Reg := Fin 8

end Sys2Proof
end

