-- ==== Sys2Proof/Config.lean ====
section
/-! DEFINITION. The fixed parameters of the core (R7, R8, R27) and the one value the spec leaves open. -/

namespace Sys2Proof.Config

/-- `MEM_SIZE`: 256 byte cells, addresses 0 to 255 (R7, R37). -/
abbrev memSize : Nat := 256

/-- `MEM_INIT`: what every cell holds that nothing has written (R8, R109): 0. The spec's own decision D5
(assumption 7, UNVERIFIED): no source states it. -/
def memInit : Byte := 0

/-- `SP_INDEX`: register 7 is the stack pointer, always (R7, R18, R27). -/
def spIndex : Reg := 7

/-- `RESET_PC` (R7, R108). -/
def resetPc : Byte := 0

/-- `RESET_REG`: the reset value of every register, R7 included (R7, R107; UNVERIFIED: decision D4,
assumption 11). -/
def resetReg : Byte := 0

/-- FREE VALUE (assumption 6, DESIGN CHOICE, safe). Where a load of `n` bytes is refused for two reasons at once (a
bad length while the status is not Idle), R115 does not say which of the two is returned. This constant has no
value a proof could see: it says, for each length, whether the status reason is the one returned. -/
opaque loadRefusalPrefersStatus : Nat → Bool

end Sys2Proof.Config
end

