-- ==== Sys2Proof/Syntax.lean ====
section
/-! DEFINITION. The nine instructions (R2), their opcodes as names, and the kinds of their operands (R58). -/

namespace Sys2Proof

/-- The nine rows of the opcode table, as names (R2, R62). Their byte patterns stand in Decode.lean. -/
inductive Opcode where
  | ldi | prn | hlt | add | mul | push | pop | call | ret
  deriving DecidableEq, Repr

/-- What an operand byte is: a register index or an immediate value (R58). -/
inductive OperandKind where
  | register
  | immediate
  deriving DecidableEq, Repr

/-- An instruction: one constructor per row of the opcode table, its arguments the operand bytes in memory order
(R56). A register operand is kept as the BYTE that was fetched, 0 to 255, because the spec gives a byte of 8 to
255 a meaning of its own, the fault InvalidRegister (R60, R93); `Instr.wellFormed` says the byte names a register (DESIGN
CHOICE, assumption 30). -/
inductive Instr where
  /-- LDI r1, imm (R73). -/
  | ldi (r1 imm : Byte)
  /-- PRN r1 (R74). -/
  | prn (r1 : Byte)
  /-- HLT (R89). -/
  | hlt
  /-- ADD r1, r2 (R81). -/
  | add (r1 r2 : Byte)
  /-- MUL r1, r2 (R82). -/
  | mul (r1 r2 : Byte)
  /-- PUSH r1 (R85). -/
  | push (r1 : Byte)
  /-- POP r1 (R86). -/
  | pop (r1 : Byte)
  /-- CALL r1 (R87). -/
  | call (r1 : Byte)
  /-- RET (R88). -/
  | ret
  deriving DecidableEq, Repr

end Sys2Proof
end

