-- ==== Sys2Proof/WellFormed.lean ====
section
/-! DEFINITION. What an instruction must satisfy for the decoder to answer it: every register operand names one of
the eight registers (R60). An immediate is never checked (R59, R60). -/

namespace Sys2Proof

/-- A register operand byte names a register exactly when it is 0 to 7 (R60). -/
def namesRegister (k : Byte) : Bool := k.toNat ≤ 7

/-- Every register operand of the instruction names a register (R58, R60). -/
def Instr.wellFormed : Instr → Bool
  | .ldi r1 _ => namesRegister r1
  | .prn r1 => namesRegister r1
  | .hlt => true
  | .add r1 r2 => namesRegister r1 && namesRegister r2
  | .mul r1 r2 => namesRegister r1 && namesRegister r2
  | .push r1 => namesRegister r1
  | .pop r1 => namesRegister r1
  | .call r1 => namesRegister r1
  | .ret => true

end Sys2Proof
end

