-- ==== Sys2Proof/Decode.lean ====
section
/-! DEFINITION. The opcode map, the decoder and the encoder (R53 to R71). -/

namespace Sys2Proof

/-- Why the decoder answers no instruction. -/
inductive DecodeError where
  /-- The opcode byte matches none of the nine patterns (R61, R92). -/
  | unknownOpcode (op : Byte)
  /-- A register operand byte is 8 to 255 (R60, R93). -/
  | invalidRegister (k : Byte)
  deriving DecidableEq, Repr

/-- The opcode table's byte pattern of each row, written in binary as R62 writes it. -/
def Opcode.byte : Opcode → Byte
  | .ldi => 0b10000010#8
  | .prn => 0b01000111#8
  | .hlt => 0b00000001#8
  | .add => 0b10100000#8
  | .mul => 0b10100010#8
  | .push => 0b01000101#8
  | .pop => 0b01000110#8
  | .call => 0b01010000#8
  | .ret => 0b00010001#8

/-- The rows of the opcode table, in its order (R62). -/
def Opcode.all : List Opcode := [.ldi, .prn, .hlt, .add, .mul, .push, .pop, .call, .ret]

/-- Opcode match: all 8 bits against the nine patterns, never a sub-field of the byte (R57, R63). -/
def Opcode.ofByte? (b : Byte) : Option Opcode := Opcode.all.find? (fun o => o.byte == b)

/-- The operand kinds of each opcode, `op1` first (R58). -/
def Opcode.operandKinds : Opcode → List OperandKind
  | .ldi => [.register, .immediate]
  | .prn | .push | .pop | .call => [.register]
  | .add | .mul => [.register, .register]
  | .hlt | .ret => []

/-- How many operand bytes follow the opcode byte; the opcode alone decides it (R55). -/
def Opcode.operandCount (o : Opcode) : Nat := o.operandKinds.length

/-- The instruction an opcode and the two bytes after it make; a byte beyond the operand count is dropped (R66). -/
def Opcode.build : Opcode → Byte → Byte → Instr
  | .ldi, op1, op2 => .ldi op1 op2
  | .prn, op1, _ => .prn op1
  | .hlt, _, _ => .hlt
  | .add, op1, op2 => .add op1 op2
  | .mul, op1, op2 => .mul op1 op2
  | .push, op1, _ => .push op1
  | .pop, op1, _ => .pop op1
  | .call, op1, _ => .call op1
  | .ret, _, _ => .ret

/-- The operand bytes that are register operands, `op1` first: the order in which they are checked (R53, R69). -/
def Opcode.registerOperands : Opcode → Byte → Byte → List Byte
  | .ldi, op1, _ => [op1]
  | .prn, op1, _ => [op1]
  | .hlt, _, _ => []
  | .add, op1, op2 => [op1, op2]
  | .mul, op1, op2 => [op1, op2]
  | .push, op1, _ => [op1]
  | .pop, op1, _ => [op1]
  | .call, op1, _ => [op1]
  | .ret, _, _ => []

/-- The decoder, total on any three bytes (R71): the opcode byte is matched first, then each register operand is
checked, `op1` before `op2`, and the first check that fails gives the fault (R69; the order is UNVERIFIED: decision D15,
assumption 21). -/
def decode (op op1 op2 : Byte) : Except DecodeError Instr :=
  match Opcode.ofByte? op with
  | none => .error (.unknownOpcode op)
  | some o =>
    match (o.registerOperands op1 op2).find? (fun k => 7 < k.toNat) with
    | some k => .error (.invalidRegister k)
    | none => .ok (o.build op1 op2)

/-- The decoder on a list of bytes, the opcode first. A byte the list does not hold is taken as 0; the fetch unit
always gives three bytes (R66), so this matters to no step. -/
def decodeBytes (bs : List Byte) : Except DecodeError Instr :=
  decode (bs.getD 0 0) (bs.getD 1 0) (bs.getD 2 0)

/-- The opcode of an instruction. -/
def Instr.opcode : Instr → Opcode
  | .ldi _ _ => .ldi
  | .prn _ => .prn
  | .hlt => .hlt
  | .add _ _ => .add
  | .mul _ _ => .mul
  | .push _ => .push
  | .pop _ => .pop
  | .call _ => .call
  | .ret => .ret

/-- The operand bytes of an instruction, in memory order (R56). -/
def Instr.operands : Instr → List Byte
  | .ldi r1 imm => [r1, imm]
  | .prn r1 => [r1]
  | .hlt => []
  | .add r1 r2 => [r1, r2]
  | .mul r1 r2 => [r1, r2]
  | .push r1 => [r1]
  | .pop r1 => [r1]
  | .call r1 => [r1]
  | .ret => []

/-- The encoder: the 1 to 3 bytes of an instruction at increasing addresses, formats F0, F1 and F2 (R43, R55, R56). -/
def encode (i : Instr) : List Byte := i.opcode.byte :: i.operands

/-- Byte `k` of an instruction given as the number `w`: bit 0 of `w` is bit 0 of the first byte and a later byte's
bits count on from it; every bit from `nbits` on is 0. -/
def tableByte (nbits w k : Nat) : Byte := BitVec.ofNat 8 ((w % 2 ^ nbits) / 2 ^ (8 * k))

/-- What the decoder reads from an instruction whose bits are `w`, numbered as the opcode table numbers them. -/
def decodeTableWord (nbits w : Nat) : Option Instr :=
  (decode (tableByte nbits w 0) (tableByte nbits w 1) (tableByte nbits w 2)).toOption

end Sys2Proof
end

