-- ==== Sys2Proof/Machine/State.lean ====
section
/-! DEFINITION. The state record of R15 as plain data, its reset value (R32), and the reasons a step can stop. -/

namespace Sys2Proof.Machine

/-- The run status, the core's only control and status register (R25). -/
inductive Status where
  /-- After reset, nothing loaded. -/
  | idle
  /-- A program is in memory, the run not started. -/
  | loaded
  /-- The dispatch loop steps. -/
  | running
  /-- Normal end by HLT; terminal until reset. -/
  | halted
  /-- Abnormal end by a fault; terminal until reset. -/
  | faulted
  deriving DecidableEq, Repr

/-- The kinds of core fault (R90). A core fault is no stop of this model: it is a next state whose status is Faulted
and whose fault record is written (R91; DEDUCED, assumption 1). -/
inductive FaultKind where
  /-- The decoder: the byte at `pc` is not one of the nine opcodes (R92). -/
  | unknownOpcode
  /-- LDI, PRN, ADD, MUL, PUSH, POP, CALL: a register operand byte is 8 to 255 (R93). -/
  | invalidRegister
  /-- The ALU: an operation outside ADD, SUB, MUL, DIV (R80). No instruction raises it (R94). -/
  | unsupportedALUOperation
  /-- The ALU's DIV with divisor 0 (R79). No instruction raises it (R94). -/
  | divideByZero
  deriving DecidableEq, Repr

/-- The fault record (R26). Its fourth item, the numeric code, is a function of the kind (R90, R91) and is computed
by `FaultRecord.code`, not stored a second time (DESIGN CHOICE, assumption 29). -/
structure FaultRecord where
  /-- The kind of the fault. -/
  kind : FaultKind
  /-- The address of the faulting instruction's opcode byte. -/
  pc : Byte
  /-- The offending byte: the opcode byte, the register operand byte, or 0 (R90). -/
  byte : Byte
  deriving DecidableEq, Repr

/-- The one memory of the core (R29, R37), as the list of the cells that differ from `Config.memInit`, by rising
address: see `Memory.wf`. -/
abbrev Memory := List Host.Cell

/-- The canonical form: addresses strictly rising, each below 256, and no entry equal to what an unlisted address
reads as. Equal memories are then equal lists. -/
abbrev Memory.wf (m : Memory) : Prop :=
  m.Pairwise (fun c d => c.1 < d.1) ∧ ∀ c ∈ m, c.1 < Config.memSize ∧ c.2 ≠ Config.memInit

/-- The state of the core: exactly the record of R15. `SP_INDEX` is the constant `Config.spIndex` (R27). -/
structure State where
  /-- `mem`, 256 bytes, program and stack (R29, R37). -/
  mem : Memory
  /-- `x[0]` to `x[7]` (R16). -/
  x : Vector Byte 8
  /-- The program counter (R21). -/
  pc : Byte
  /-- The run status (R25). -/
  status : Status
  /-- The fault record, none unless Faulted (R26). -/
  fault : Option FaultRecord
  /-- The bytes PRN has emitted, oldest first (R28). -/
  out : List Byte
  deriving DecidableEq, Repr

/-- Why a step stops without a next state. -/
inductive Fault where
  /-- Raised by `step` alone, in every state whose status (given) is not Running: the core takes no step there (R53,
  R99) and the state stands as it is. Safe: nothing is claimed of a step the core does not take (DESIGN CHOICE,
  assumption 2). -/
  | notRunning (st : Status)
  deriving DecidableEq, Repr

/-- Why an instruction has no meaning in this model. -/
inductive Refusal where
  /-- Raised by `exec` alone, for an instruction the model gives no meaning. Every one of the nine has its meaning, so
  no arm raises it. Safe: nothing is claimed of such an instruction. -/
  | notModelled (mnemonic : String)
  deriving DecidableEq, Repr

/-- What an instruction's meaning answers. -/
abbrev Result := Host.Outcome State Fault Refusal

/-- The machine right after reset (R32, R106 to R110): registers and `pc` 0, every memory cell `MEM_INIT`, status
Idle, no fault record, nothing emitted. -/
def State.reset : State where
  mem := []
  x := Vector.replicate 8 Config.resetReg
  pc := Config.resetPc
  status := .idle
  fault := none
  out := []

end Sys2Proof.Machine
end

