-- ==== Sys2Proof/Machine/Ops.lean ====
section
/-! DEFINITION. The named operations over memory, registers, the output port and the run status, and taking a fault. -/

namespace Sys2Proof.Machine

/-- The byte at an address; an address the list does not name reads as `MEM_INIT` (R40, R50). -/
def Memory.read : Memory → Nat → Byte
  | [], _ => Config.memInit
  | (b, u) :: m, a => if a = b then u else Memory.read m a

/-- The cells other than the one at `a`. -/
def Memory.erase (m : Memory) (a : Nat) : Memory := m.filter (fun c => c.1 != a)

/-- Puts a cell before the first cell of a greater address. -/
def Memory.insert : Memory → Nat → Byte → Memory
  | [], a, v => [(a, v)]
  | (b, u) :: m, a, v => if a < b then (a, v) :: (b, u) :: m else (b, u) :: Memory.insert m a v

/-- Sets the byte at an address, and nothing else (R41). Writing `MEM_INIT` removes the entry. -/
def Memory.write (m : Memory) (a : Nat) (v : Byte) : Memory :=
  if v = Config.memInit then m.erase a else (m.erase a).insert a v

/-- `MemRead(addr, 1)` (R40): it changes no state and has no side effect (R46). -/
def State.readMem (s : State) (a : Byte) : Byte := s.mem.read a.toNat

/-- `MemWrite(addr, 1, v)` (R41). -/
def State.writeMem (s : State) (a v : Byte) : State := { s with mem := s.mem.write a.toNat v }

/-- `x[r]`, read (R11, R16). No register is hard-wired (R17). -/
def State.reg (s : State) (r : Reg) : Byte := s.x[r]

/-- `x[r] <- v` (R11, R16, R17). -/
def State.setReg (s : State) (r : Reg) (v : Byte) : State := { s with x := s.x.set r.val v r.isLt }

/-- `SP`, which is `x[7]` (R18). -/
def State.sp (s : State) : Byte := s.reg Config.spIndex

/-- `SP <- v`: R7 written like any register (R17, R18). -/
def State.setSp (s : State) (v : Byte) : State := s.setReg Config.spIndex v

/-- `pc <- target` (R11): any byte is a valid target (R44). -/
def State.setPc (s : State) (target : Byte) : State := { s with pc := target }

/-- The PC update logic: `pc <- wrap8(a + 1 + n)` for an instruction at `a` with `n` operand bytes (R67). During the
instruction `pc` still holds `a` (R22). It wraps at 256 (UNVERIFIED: decision D2, assumption 9). -/
def State.advance (s : State) (n : Nat) : State := s.setPc (s.pc + BitVec.ofNat 8 (1 + n))

/-- `emit(v)`: appends a byte to the output port's sequence (R11, R28, R102;
UNVERIFIED: decision D13, assumption 19). -/
def State.emit (s : State) (v : Byte) : State := { s with out := s.out ++ [v] }

/-- `status <- Halted` (R11, R89). -/
def State.halt (s : State) : State := { s with status := .halted }

/-- TAKING A FAULT (R91): `raise Fault(kind, {pc: a, byte: b})` sets the status and writes the fault record with the
address of the faulting instruction, and changes nothing else: no register, memory cell, `pc` or `out` (R97), no
vector, no mode, no stack (R98). There is no return beside it: no instruction returns from a fault (R99); only
the host's reset leaves the Faulted status. That `pc` stays is UNVERIFIED: decision D10, assumption 16. -/
def State.raise (s : State) (kind : FaultKind) (b : Byte) : State :=
  { s with status := .faulted, fault := some { kind := kind, pc := s.pc, byte := b } }

/-- The fault a decode refusal raises (R61, R60): the kind with the offending byte (R92, R93). -/
def State.raiseDecode (s : State) : DecodeError → State
  | .unknownOpcode op => s.raise .unknownOpcode op
  | .invalidRegister k => s.raise .invalidRegister k

/-- `x[7] <- wrap8(x[7] - 1)` (R83; the wrap is UNVERIFIED: decision D2, assumption 9). -/
def State.decSp (s : State) : State := s.setSp (s.sp - 1)

/-- `x[7] <- wrap8(x[7] + 1)` (R84; the wrap is UNVERIFIED: decision D2, assumption 9). -/
def State.incSp (s : State) : State := s.setSp (s.sp + 1)

/-- `MemWrite(x[7], 1, v)`: a byte stored at the top of the stack. -/
def State.storeTop (s : State) (v : Byte) : State := s.writeMem s.sp v

/-- `PushValue(v)`: SP is decremented, then the byte is written at the new SP; no check (R83). -/
def State.pushValue (s : State) (v : Byte) : State := s.decSp.storeTop v

/-- The push of a register: SP is decremented, then the register is READ and written at the new SP (R85; the order
is UNVERIFIED: decision D16, assumption 22), so that R7 is pushed as the decremented SP. -/
def State.pushReg (s : State) (r : Reg) : State := s.decSp.storeTop (s.decSp.reg r)

/-- `PopValue()`: the byte at SP, and the state with SP incremented; no check, and the byte stays in memory (R84). -/
def State.popValue (s : State) : Byte × State := (s.readMem s.sp, s.incSp)

/-- The pop into a register: the register is WRITTEN with the byte at SP, then SP is incremented (R86; the order is
UNVERIFIED: decision D16, assumption 22), so that a pop into R7 leaves SP one above the byte read. -/
def State.popReg (s : State) (r : Reg) : State := (s.setReg r (s.readMem s.sp)).incSp

/-- The fetch unit and the decoder (R53, R54, R66): the three bytes at `pc`, `wrap8(pc+1)` and `wrap8(pc+2)`, read
from the memory that instructions write, with no buffer between (R52; UNVERIFIED: decision D17, assumption 23), and
decoded. The decoder drops the bytes beyond the instruction (DESIGN CHOICE, assumption 33). -/
def State.fetchDecode (s : State) : Except DecodeError Instr :=
  decode (s.readMem s.pc) (s.readMem (s.pc + 1)) (s.readMem (s.pc + 2))

/-- Writes bytes at increasing addresses from `a`, wrapping at 256 (R43, R48). -/
def State.placeBytes (s : State) (a : Byte) : List Byte → State
  | [] => s
  | b :: bs => (s.writeMem a b).placeBytes (a + 1) bs

end Sys2Proof.Machine
end

