-- ==== Sys2Proof/Machine/Flags.lean ====
section
/-! DEFINITION. The core has no flags, condition codes or predicates (R24), so there is no flag computation. What
stands here in its place is the narrowing of an exact result to a byte, in which carry, borrow and high byte are
lost and recorded nowhere (R10, R20, R76 to R78). -/

namespace Sys2Proof.Machine

/-- `wrap8(v) = v mod 256` for any integer, so `wrap8(-1) = 255` (R10, R20; UNVERIFIED: decision D1,
assumption 8). -/
def wrap8 (v : Int) : Byte := BitVec.ofInt 8 v

end Sys2Proof.Machine
end

