-- ==== Sys2Proof/Machine/Operands.lean ====
section
/-! DEFINITION. The one operand form that needs a check, the register operand (R60). The other form, LDI's immediate,
is the operand byte itself (R59). -/

namespace Sys2Proof.Machine

/-- A register operand byte `k`: 0 to 7 names `x[k]`; 8 to 255 names no register, is not masked, and raises
InvalidRegister with that byte before anything is written (R60, R70, R93; UNVERIFIED: decision D3,
assumption 10). -/
def withRegister (k : Byte) (s : State) (use : Reg → Result) : Result :=
  if h : k.toNat < 8 then use ⟨k.toNat, h⟩ else .next (s.raise .invalidRegister k)

end Sys2Proof.Machine
end

