-- ==== Sys2Proof/Machine/Alu.lean ====
section
/-! DEFINITION. The ALU (R75 to R80) and its two instructions, ADD and MUL (R81, R82). -/

namespace Sys2Proof.Machine

/-- The ALU's operation select `f` (R75). -/
inductive AluFn where
  | add | sub | mul | div
  /-- Any operation outside the set of four (R80). No instruction selects it (R94; DESIGN CHOICE, assumption 27). -/
  | other
  deriving DecidableEq, Repr

/-- The ALU, a pure function of an operation and two bytes (R75): each result is computed exactly and narrowed with
`wrap8`; DIV by 0 and an operation outside the set fail. SUB, DIV and `other` are reached by no opcode (DIV is
UNVERIFIED: decision D6, assumption 12). -/
def alu (f : AluFn) (A B : Byte) : Except FaultKind Byte :=
  match f with
  | .add => .ok (wrap8 ((A.toNat : Int) + B.toNat))
  | .sub => .ok (wrap8 ((A.toNat : Int) - B.toNat))
  | .mul => .ok (wrap8 ((A.toNat : Int) * B.toNat))
  | .div => if B = 0 then .error .divideByZero else .ok (wrap8 (A.toNat / B.toNat : Nat))
  | .other => .error .unsupportedALUOperation

/-- An ALU instruction: `op1` then `op2` are checked (R69); both registers are read before `r1` is written; a failure
of the ALU is a core fault with byte 0 and writes nothing else (R80, R90). -/
def aluInstr (f : AluFn) (r1 r2 : Byte) (s : State) : Result :=
  withRegister r1 s fun a => withRegister r2 s fun b =>
    match alu f (s.reg a) (s.reg b) with
    | .ok v => .next ((s.setReg a v).advance 2)
    | .error k => .next (s.raise k 0)

/-- ADD (R81): `x[r1] <- wrap8(x[r1] + x[r2])`, `pc <- wrap8(a + 3)`. -/
def execAdd (r1 r2 : Byte) (s : State) : Result := aluInstr .add r1 r2 s

/-- MUL (R82): `x[r1] <- wrap8(x[r1] × x[r2])`, `pc <- wrap8(a + 3)`. -/
def execMul (r1 r2 : Byte) (s : State) : Result := aluInstr .mul r1 r2 s

end Sys2Proof.Machine
end

