-- ==== Sys2Proof/Machine/Control.lean ====
section
/-! DEFINITION. Control transfer and halt: CALL, RET and HLT (R87 to R89). -/

namespace Sys2Proof.Machine

/-- CALL (R87): the address after the CALL's two bytes is pushed, then `pc` takes the register, read AFTER the push
(so CALL R7 jumps to the decremented SP); no auto-advance (R68). -/
def execCall (r1 : Byte) (s : State) : Result :=
  withRegister r1 s fun r =>
    let pushed := s.pushValue (s.pc + 2)
    .next (pushed.setPc (pushed.reg r))

/-- RET (R88): `pc` takes the popped byte; no auto-advance (R68). It cannot fault. -/
def execRet (s : State) : Result := .next (s.popValue.2.setPc s.popValue.1)

/-- HLT (R89): `status <- Halted`, and `pc <- wrap8(a + 1)` (R67; UNVERIFIED: decision D7,
assumption 13). -/
def execHlt (s : State) : Result := .next (s.halt.advance 0)

end Sys2Proof.Machine
end

