-- ==== Sys2Proof/Machine/LoadOutput.lean ====
section
/-! DEFINITION. The load-immediate and output instructions, LDI and PRN (R73, R74). -/

namespace Sys2Proof.Machine

/-- LDI (R73): `x[r1] <- imm`, the immediate unchanged and never checked; `pc <- wrap8(a + 3)`. -/
def execLdi (r1 imm : Byte) (s : State) : Result :=
  withRegister r1 s fun d => .next ((s.setReg d imm).advance 2)

/-- PRN (R74): `emit(x[r1])`; `pc <- wrap8(a + 2)`. -/
def execPrn (r1 : Byte) (s : State) : Result :=
  withRegister r1 s fun r => .next ((s.emit (s.reg r)).advance 1)

end Sys2Proof.Machine
end

