-- ==== Sys2Proof/Machine/Stack.lean ====
section
/-! DEFINITION. The stack instructions PUSH and POP (R85, R86). -/

namespace Sys2Proof.Machine

/-- PUSH (R85): SP is decremented and the register, read after that, is stored at the new SP; `pc <- wrap8(a + 2)`. -/
def execPush (r1 : Byte) (s : State) : Result :=
  withRegister r1 s fun r => .next ((s.pushReg r).advance 1)

/-- POP (R86): the register takes the byte at SP, then SP is incremented; `pc <- wrap8(a + 2)`. -/
def execPop (r1 : Byte) (s : State) : Result :=
  withRegister r1 s fun r => .next ((s.popReg r).advance 1)

end Sys2Proof.Machine
end

