-- ==== Sys2Proof/Machine/Dispatch.lean ====
section
/-! DEFINITION. `exec`: one arm per instruction, one call of its meaning (R53). -/

namespace Sys2Proof.Machine

/-- The `execute` part of a step together with the PC update (R53, R67), at the state whose `pc` is the address of the
instruction's opcode byte (R22). It does not look at the status, which `step` does (DESIGN CHOICE, assumption 31). -/
def exec (i : Instr) (s : State) : Host.Outcome State Fault Refusal :=
  match i with
  | .ldi r1 imm => Sys2Proof.Machine.execLdi r1 imm s
  | .prn r1 => Sys2Proof.Machine.execPrn r1 s
  | .hlt => Sys2Proof.Machine.execHlt s
  | .add r1 r2 => Sys2Proof.Machine.execAdd r1 r2 s
  | .mul r1 r2 => Sys2Proof.Machine.execMul r1 r2 s
  | .push r1 => Sys2Proof.Machine.execPush r1 s
  | .pop r1 => Sys2Proof.Machine.execPop r1 s
  | .call r1 => Sys2Proof.Machine.execCall r1 s
  | .ret => Sys2Proof.Machine.execRet s

end Sys2Proof.Machine
end

