-- ==== Sys2Proof/Machine/Step.lean ====
section
/-! DEFINITION. One step of the core (R53), and placing an instruction where the next step fetches it. -/

namespace Sys2Proof.Machine

/-- One step (R53): possible only when the status is Running; it executes the instruction decoded at `pc`, or ends in
the one fault that decoding raises (R61, R60, R95), which is a next state (DEDUCED, assumption 1). In any other status no
step takes place, and the answer is the stop `notRunning` (DESIGN CHOICE, assumption 2). -/
def step (s : State) : Host.Outcome State Fault Refusal :=
  match s.status with
  | .running =>
    match s.fetchDecode with
    | .ok i => exec i s
    | .error e => .next (s.raiseDecode e)
  | .idle => .fault (.notRunning .idle)
  | .loaded => .fault (.notRunning .loaded)
  | .halted => .fault (.notRunning .halted)
  | .faulted => .fault (.notRunning .faulted)

/-- `s` with the instruction whose bits are `w` (numbered as the opcode table numbers them, bits from `nbits` on zero)
at the three bytes from `pc`, and with what a fetch needs: the status Running and, as R26 then requires, no fault
record. It stands for the host's load and run (R114, R116; DESIGN CHOICE,
assumption 3). -/
def State.withFetchWord (s : State) (nbits w : Nat) : State :=
  { s.placeBytes s.pc [tableByte nbits w 0, tableByte nbits w 1, tableByte nbits w 2] with
    status := .running, fault := none }

end Sys2Proof.Machine
end

