-- ==== Sys2Proof/Machine/Assembly.lean ====
section
/-! DEFINITION. The canonical assembly spelling and the program text of R72. Spelling only: no step reads it. Texts are
lists of characters. -/

namespace Sys2Proof.Machine

/-- The mnemonic of each row (R62). -/
def opcodeMnemonic : Opcode → List Char
  | .ldi => ['L', 'D', 'I']
  | .prn => ['P', 'R', 'N']
  | .hlt => ['H', 'L', 'T']
  | .add => ['A', 'D', 'D']
  | .mul => ['M', 'U', 'L']
  | .push => ['P', 'U', 'S', 'H']
  | .pop => ['P', 'O', 'P']
  | .call => ['C', 'A', 'L', 'L']
  | .ret => ['R', 'E', 'T']

/-- A decimal number (R72: immediates are decimal). -/
def decimalText (v : Byte) : List Char := Nat.toDigits 10 v.toNat

/-- An operand: a register as `R` and its number, an immediate as its decimal number (R72). -/
def operandText : OperandKind → Byte → List Char
  | .register, k => 'R' :: decimalText k
  | .immediate, v => decimalText v

/-- Operands with the canonical separator, a comma and a space (R72). -/
def operandsText : List (List Char) → List Char
  | [] => []
  | [t] => t
  | t :: u :: ts => t ++ [',', ' '] ++ operandsText (u :: ts)

/-- The canonical spelling `MNEMONIC op1, op2` (R72; decision D18). -/
def assemblyText (i : Instr) : List Char :=
  let ops := List.zipWith operandText i.opcode.operandKinds i.operands
  opcodeMnemonic i.opcode ++ (if ops.isEmpty then [] else ' ' :: operandsText ops)

/-- A program line: the byte as an 8-character binary literal, most significant bit first (R10, R72). -/
def byteLine (b : Byte) : List Char :=
  [7, 6, 5, 4, 3, 2, 1, 0].map (fun k => if b.getLsbD k then '1' else '0')

/-- The program lines of an instruction, one byte a line (R72; conflict C4). -/
def programLines (i : Instr) : List (List Char) := (encode i).map byteLine

end Sys2Proof.Machine
end

