-- ==== Sys2Proof/Machine/HostPort.lean ====
section
/-! DEFINITION. The core's interfaces to the host, as whole transactions between steps (R34, R35, R104, R106, R110 to
R116): reset, load, run, the reads of status and fault, the debug read, and the output port. -/

namespace Sys2Proof.Machine

/-- The status as the host reads it (R25; UNVERIFIED: decision D8, assumption 14). -/
def Status.code : Status → Nat
  | .idle => 0
  | .loaded => 1
  | .running => 2
  | .halted => 3
  | .faulted => 4

/-- The fault code of each kind (R90; UNVERIFIED: decision D9, assumption 15). -/
def FaultKind.code : FaultKind → Nat
  | .unknownOpcode => 1
  | .invalidRegister => 2
  | .unsupportedALUOperation => 3
  | .divideByZero => 4

/-- The `code` item of the fault record (R26, R91). -/
def FaultRecord.code (r : FaultRecord) : Nat := r.kind.code

/-- The fault code of a state; code 0 means no fault (R90). -/
def State.faultCode (s : State) : Nat :=
  match s.fault with
  | none => 0
  | some r => r.code

/-- Why a load is refused (R115). -/
inductive LoadRefusal where
  | emptyProgram | programTooLarge | notIdle
  deriving DecidableEq, Repr

/-- Why a run is refused (R116). R116 refuses a run in the status Running too and gives that refusal no name;
`alreadyRunning` is this model's name for it (assumption 5, DESIGN CHOICE). -/
inductive RunRefusal where
  | notLoaded | notRunnable | alreadyRunning
  deriving DecidableEq, Repr

/-- The length reason of a refusal, if the length is bad: R114 asks for 1 to 256 bytes (R115). -/
def loadLengthRefusal? (n : Nat) : Option LoadRefusal :=
  if n = 0 then some .emptyProgram else if Config.memSize < n then some .programTooLarge else none

/-- The reason a load of `n` bytes is refused in a given status, if it is (R115). Where both the length and the status
are bad, R115 does not say which reason is returned: the free value of Config decides (assumption 6). -/
def loadRefusal? (st : Status) (n : Nat) : Option LoadRefusal :=
  if st = .idle then loadLengthRefusal? n
  else
    match loadLengthRefusal? n with
    | none => some .notIdle
    | some r => if Config.loadRefusalPrefersStatus n then some .notIdle else some r

/-- The load transaction (R113, R114): the program's bytes to addresses 0 upward, then the status Loaded. Refusals are
UNVERIFIED: decision D12, assumption 18. -/
def State.load (s : State) (b : List Byte) : Except LoadRefusal State :=
  match loadRefusal? s.status b.length with
  | some r => .error r
  | none => .ok { s.placeBytes 0 b with status := .loaded }

/-- The start of the run transaction (R116): Loaded becomes Running; any other status refuses. The steps that follow,
and what run() returns, stand in Run.lean. -/
def State.startRun (s : State) : Except RunRefusal State :=
  match s.status with
  | .loaded => .ok { s with status := .running }
  | .idle => .error .notLoaded
  | .running => .error .alreadyRunning
  | .halted => .error .notRunnable
  | .faulted => .error .notRunnable

/-- The reset transaction (R106): every item of the state to its reset value, whatever the state was. -/
def State.hostReset (_ : State) : State := .reset

/-- What the host reads through the debug accessors (R104). -/
structure DebugView where
  pc : Byte
  x : Vector Byte 8
  /-- `mem[pc]`, `mem[wrap8(pc+1)]`, `mem[wrap8(pc+2)]`. -/
  bytes : List Byte
  status : Nat
  fault : Option FaultRecord
  deriving DecidableEq, Repr

/-- The debug read (R104). -/
def State.debugView (s : State) : DebugView where
  pc := s.pc
  x := s.x
  bytes := [s.readMem s.pc, s.readMem (s.pc + 1), s.readMem (s.pc + 2)]
  status := s.status.code
  fault := s.fault

/-- A host transaction (R34). -/
inductive HostRequest where
  | reset
  | load (b : List Byte)
  | run
  | readStatus
  | readFault
  | debugRead
  | readOutput
  deriving DecidableEq, Repr

/-- What a transaction returns to the host. -/
inductive HostReply where
  | done
  | loadRefused (r : LoadRefusal)
  | runRefused (r : RunRefusal)
  | status (code : Nat)
  | fault (code : Nat) (record : Option FaultRecord)
  | debug (v : DebugView)
  | output (bytes : List Byte)
  deriving DecidableEq, Repr

/-- A transaction, between steps and no input of `step` (DESIGN CHOICE, assumption 4), atomic with respect to a step (R9,
R34, R45): the reply and the state after it. A refused load or run changes no state (R115, R116), and a read changes
none (R104). -/
def transact (q : HostRequest) (s : State) : HostReply × State :=
  match q with
  | .reset => (.done, s.hostReset)
  | .load b =>
    match s.load b with
    | .ok t => (.done, t)
    | .error r => (.loadRefused r, s)
  | .run =>
    match s.startRun with
    | .ok t => (.done, t)
    | .error r => (.runRefused r, s)
  | .readStatus => (.status s.status.code, s)
  | .readFault => (.fault s.faultCode s.fault, s)
  | .debugRead => (.debug s.debugView, s)
  | .readOutput => (.output s.out, s)

end Sys2Proof.Machine
end

