-- ==== Sys2Proof/Machine/Run.lean ====
section
/-! DEFINITION. The dispatch loop and what run() returns (R116, R121). -/

namespace Sys2Proof.Machine

/-- At most `n` steps, ending early where the core takes no step (R53, R99). -/
def runSteps : Nat → State → State
  | 0, s => s
  | n + 1, s =>
    match step s with
    | .next t => runSteps n t
    | .fault _ => s
    | .refused _ => s

/-- What run() returns (R116). -/
inductive RunOutcome where
  | halted
  | faulted (r : FaultRecord)
  deriving DecidableEq, Repr

/-- The outcome a state shows: none while the run has not ended (R116, R121). -/
def State.outcome? (s : State) : Option RunOutcome :=
  match s.status with
  | .halted => some .halted
  | .faulted => s.fault.map .faulted
  | .running => none
  | .idle => none
  | .loaded => none

/-- What the host sees of a run() it has waited on for some number of steps. -/
inductive RunReply where
  | refused (r : RunRefusal)
  | returned (o : RunOutcome)
  /-- run() has not returned yet (R116: it blocks). -/
  | blocked
  deriving DecidableEq, Repr

/-- The run transaction (R116), waited on for at most `n` steps (DESIGN CHOICE, assumption 32). -/
def hostRun (n : Nat) (s : State) : RunReply × State :=
  match s.startRun with
  | .error r => (.refused r, s)
  | .ok t =>
    match (runSteps n t).outcome? with
    | some o => (.returned o, runSteps n t)
    | none => (.blocked, runSteps n t)

end Sys2Proof.Machine
end

