-- ==== Sys2Proof/Safety.lean ====
section
/-! DEFINITION. What claims say about states, steps and runs: the state invariant, the system of core and host, the
runs that end and the runs that hang. -/

namespace Sys2Proof.Machine

/-- The nine opcode bytes, as R62 lists them by value; every other byte is illegal (R64). Written from the spec's list,
not from the decoder's map. -/
def nineOpcodes : List Byte := [0x01, 0x11, 0x45, 0x46, 0x47, 0x50, 0x82, 0xA0, 0xA2]

/-- Frame: every byte of memory reads as before. -/
def KeepsMemory (s t : State) : Prop := ∀ a, t.readMem a = s.readMem a

/-- Frame: every byte of memory outside the address stored to reads as before. -/
def KeepsMemoryExcept (s t : State) (stored : Byte) : Prop := ∀ a, a ≠ stored → t.readMem a = s.readMem a

/-- Frame: the run status and the fault record are as before. -/
def KeepsRunState (s t : State) : Prop := t.status = s.status ∧ t.fault = s.fault

/-- Whether the status ends a run: Halted and Faulted are terminal (R25, R99). -/
def Status.terminal : Status → Bool
  | .halted => true
  | .faulted => true
  | .idle => false
  | .loaded => false
  | .running => false

/-- Whether a program has not started yet: the two statuses before Running (R25). -/
def Status.preRun : Status → Bool
  | .idle => true
  | .loaded => true
  | .running => false
  | .halted => false
  | .faulted => false

/-- The invariant of the core's state. -/
structure State.Inv (s : State) : Prop where
  /-- Memory is in its canonical form. -/
  memWf : s.mem.wf
  /-- The fault record is none unless the status is Faulted, and is present then (R26). -/
  faultRecord : s.fault.isSome = true ↔ s.status = .faulted
  /-- A faulted core's `pc` is the faulting instruction's address (R97; decision D10). -/
  faultPc : ∀ r, s.fault = some r → r.pc = s.pc
  /-- Only the two kinds of fault that this hardware can raise are ever recorded (R94). -/
  faultKind : ∀ r, s.fault = some r → r.kind = .unknownOpcode ∨ r.kind = .invalidRegister
  /-- Before a run starts, registers, `pc` and `out` stand at their reset values (R110, R111, R114). -/
  atEntry : s.status.preRun = true →
    s.x = State.reset.x ∧ s.pc = State.reset.pc ∧ s.out = State.reset.out
  /-- Before a load, memory stands at its reset contents (R109, R115). -/
  memIdle : s.status = .idle → s.mem = State.reset.mem

/-- One event of the whole system: a step of the core, or a host transaction between steps (R9, R34). -/
inductive SysStep : State → State → Prop where
  | core {s t : State} (h : step s = .next t) : SysStep s t
  | host (q : HostRequest) (s : State) : SysStep s (transact q s).2

/-- The states that some sequence of steps and host transactions reaches from reset. -/
inductive Reachable : State → Prop where
  | reset : Reachable State.reset
  | step {s t : State} (hs : Reachable s) (h : SysStep s t) : Reachable t

/-- A run from `s` that ends in `t` with outcome `o` (R116, R121). -/
def RunEnds (s : State) (o : RunOutcome) (t : State) : Prop :=
  ∃ n, runSteps n s = t ∧ t.outcome? = some o

/-- A hang: the status stays Running after any number of steps (R121). -/
def Hangs (s : State) : Prop := ∀ n, (runSteps n s).status = .running

/-- A safe run: no number of steps faults. -/
def FaultFree (s : State) : Prop := ∀ n, (runSteps n s).status ≠ .faulted

end Sys2Proof.Machine
end

