-- ==== Sys2Proof/Certificates/Slice0/Obligations.lean ====
section
/-! DEFINITION. The statements for the provers. Register operand bytes are quantified over all bytes: a byte below 8
names the register of that number, a byte of 8 or more is the InvalidRegister form. `s.sp` is register 7. -/

open Sys2Proof Sys2Proof.Machine

/-! ## The instructions: result, frame and completion -/

/-- R73, whole: LDI's encoding; for a register operand it completes, writes the immediate unchanged, moves `pc` on by 3
and leaves all else alone; for any other operand byte it raises InvalidRegister with that byte. The wrap and the fault are
the spec's decisions D2 and D3 (assumptions 9 and 10). -/
def Obligations.LdiWritesImmediate : Prop :=
  ∀ (s : State) (r1 imm : Byte),
    encode (.ldi r1 imm) = [0x82, r1, imm] ∧
    (∀ h : r1.toNat < 8, ∃ t, exec (.ldi r1 imm) s = .next t ∧
      t.reg ⟨r1.toNat, h⟩ = imm ∧ t.pc = s.pc + 3 ∧
      (∀ q : Reg, q.val ≠ r1.toNat → t.reg q = s.reg q) ∧
      KeepsMemory s t ∧ t.out = s.out ∧ KeepsRunState s t) ∧
    (8 ≤ r1.toNat → exec (.ldi r1 imm) s = .next (s.raise .invalidRegister r1))

/-- R74, whole: PRN's encoding; for a register operand it completes, appends the register's byte to `out`, moves `pc` on
by 2 and leaves all else alone; for any other operand byte it raises InvalidRegister. The wrap, the
fault and the port are the spec's decisions D2, D3 and D13 (assumptions 9, 10 and 19). -/
def Obligations.PrnEmitsRegister : Prop :=
  ∀ (s : State) (r1 : Byte),
    encode (.prn r1) = [0x47, r1] ∧
    (∀ h : r1.toNat < 8, ∃ t, exec (.prn r1) s = .next t ∧
      t.out = s.out ++ [s.reg ⟨r1.toNat, h⟩] ∧ t.pc = s.pc + 2 ∧
      (∀ q : Reg, t.reg q = s.reg q) ∧ KeepsMemory s t ∧ KeepsRunState s t) ∧
    (8 ≤ r1.toNat → exec (.prn r1) s = .next (s.raise .invalidRegister r1))

/-- R81, whole: ADD's encoding; for two register operands it completes with the sum modulo 256 of the two OLD values in
`r1`, `pc` on by 3, and all else alone (`r2` too, where it is another register); a bad `r1`, else a bad `r2`, raises
InvalidRegister with that byte. Modulus, wrap, fault and order are the spec's decisions D1, D2, D3 and D15 (assumptions 8,
9, 10 and 21). -/
def Obligations.AddStoresSumModulo256 : Prop :=
  ∀ (s : State) (r1 r2 : Byte),
    encode (.add r1 r2) = [0xA0, r1, r2] ∧
    (∀ (h1 : r1.toNat < 8) (h2 : r2.toNat < 8), ∃ t, exec (.add r1 r2) s = .next t ∧
      (t.reg ⟨r1.toNat, h1⟩).toNat = ((s.reg ⟨r1.toNat, h1⟩).toNat + (s.reg ⟨r2.toNat, h2⟩).toNat) % 256 ∧
      t.pc = s.pc + 3 ∧ (∀ q : Reg, q.val ≠ r1.toNat → t.reg q = s.reg q) ∧
      KeepsMemory s t ∧ t.out = s.out ∧ KeepsRunState s t) ∧
    (8 ≤ r1.toNat → exec (.add r1 r2) s = .next (s.raise .invalidRegister r1)) ∧
    (r1.toNat < 8 → 8 ≤ r2.toNat → exec (.add r1 r2) s = .next (s.raise .invalidRegister r2))

/-- R82, whole: MUL's encoding; for two register operands it completes with the low 8 bits of the product of the two OLD
values in `r1`, `pc` on by 3, and all else alone; a bad `r1`, else a bad `r2`, raises InvalidRegister. Decisions D1, D2, D3
and D15 (assumptions 8, 9, 10 and 21). -/
def Obligations.MulStoresProductModulo256 : Prop :=
  ∀ (s : State) (r1 r2 : Byte),
    encode (.mul r1 r2) = [0xA2, r1, r2] ∧
    (∀ (h1 : r1.toNat < 8) (h2 : r2.toNat < 8), ∃ t, exec (.mul r1 r2) s = .next t ∧
      (t.reg ⟨r1.toNat, h1⟩).toNat = ((s.reg ⟨r1.toNat, h1⟩).toNat * (s.reg ⟨r2.toNat, h2⟩).toNat) % 256 ∧
      t.pc = s.pc + 3 ∧ (∀ q : Reg, q.val ≠ r1.toNat → t.reg q = s.reg q) ∧
      KeepsMemory s t ∧ t.out = s.out ∧ KeepsRunState s t) ∧
    (8 ≤ r1.toNat → exec (.mul r1 r2) s = .next (s.raise .invalidRegister r1)) ∧
    (r1.toNat < 8 → 8 ≤ r2.toNat → exec (.mul r1 r2) s = .next (s.raise .invalidRegister r2))

/-- PUSH, for a register operand: SP goes down by one (wrapping, decision D2), the byte at the new SP is the register, or
the decremented SP itself for R7 (the spec's decision D16, assumption 22), every other byte of memory and every register
but R7 stays, `pc` goes on by 2. -/
def Obligations.PushStoresBelowOldTop : Prop :=
  ∀ (s : State) (r1 : Byte) (h : r1.toNat < 8), ∃ t, exec (.push r1) s = .next t ∧
    t.sp = s.sp - 1 ∧
    (r1.toNat ≠ 7 → t.readMem (s.sp - 1) = s.reg ⟨r1.toNat, h⟩) ∧
    (r1.toNat = 7 → t.readMem (s.sp - 1) = s.sp - 1) ∧
    KeepsMemoryExcept s t (s.sp - 1) ∧
    (∀ q : Reg, q ≠ Config.spIndex → t.reg q = s.reg q) ∧
    t.pc = s.pc + 2 ∧ t.out = s.out ∧ KeepsRunState s t

/-- POP, for a register operand: the register takes the byte at SP and SP goes up by one (wrapping, decision D2); for R7,
SP becomes one more than the byte read (the spec's decision D16, assumption 22); memory and every other register stay,
`pc` goes on by 2. -/
def Obligations.PopLoadsTop : Prop :=
  ∀ (s : State) (r1 : Byte) (h : r1.toNat < 8), ∃ t, exec (.pop r1) s = .next t ∧
    (r1.toNat ≠ 7 → t.reg ⟨r1.toNat, h⟩ = s.readMem s.sp ∧ t.sp = s.sp + 1) ∧
    (r1.toNat = 7 → t.sp = s.readMem s.sp + 1) ∧
    (∀ q : Reg, q.val ≠ r1.toNat → q ≠ Config.spIndex → t.reg q = s.reg q) ∧
    KeepsMemory s t ∧ t.pc = s.pc + 2 ∧ t.out = s.out ∧ KeepsRunState s t

/-- CALL, for a register operand: SP goes down by one, the byte at the new SP is the address after the CALL, every other
byte of memory and every register but R7 stays, and `pc` takes the register, read after the push, so that CALL R7 goes to
the decremented SP (the spec's decisions D2 and D16, assumptions 9 and 22). -/
def Obligations.CallPushesReturnAddress : Prop :=
  ∀ (s : State) (r1 : Byte) (h : r1.toNat < 8), ∃ t, exec (.call r1) s = .next t ∧
    t.sp = s.sp - 1 ∧ t.readMem (s.sp - 1) = s.pc + 2 ∧
    KeepsMemoryExcept s t (s.sp - 1) ∧
    (∀ q : Reg, q ≠ Config.spIndex → t.reg q = s.reg q) ∧
    (r1.toNat ≠ 7 → t.pc = s.reg ⟨r1.toNat, h⟩) ∧ (r1.toNat = 7 → t.pc = s.sp - 1) ∧
    t.out = s.out ∧ KeepsRunState s t

/-- PUSH, POP and CALL with an operand byte of 8 or more raise InvalidRegister with that byte and do nothing else: no push
happens (the spec's decision D3, assumption 10). -/
def Obligations.StackFormsTrapOnBadRegister : Prop :=
  ∀ (s : State) (k : Byte), 8 ≤ k.toNat →
    exec (.push k) s = .next (s.raise .invalidRegister k) ∧
    exec (.pop k) s = .next (s.raise .invalidRegister k) ∧
    exec (.call k) s = .next (s.raise .invalidRegister k)

/-- RET, in every state: `pc` takes the byte at SP, SP goes up by one (wrapping, decision D2), all else stays. It never
faults (assumption 9). -/
def Obligations.RetPopsPc : Prop :=
  ∀ s : State, ∃ t, exec .ret s = .next t ∧
    t.pc = s.readMem s.sp ∧ t.sp = s.sp + 1 ∧
    (∀ q : Reg, q ≠ Config.spIndex → t.reg q = s.reg q) ∧
    KeepsMemory s t ∧ t.out = s.out ∧ KeepsRunState s t

/-- HLT, in every state: the status becomes Halted, `pc` goes on by 1 (the spec's decision D7, assumption 13), all else
stays. -/
def Obligations.HltHalts : Prop :=
  ∀ s : State, ∃ t, exec .hlt s = .next t ∧
    t.status = .halted ∧ t.pc = s.pc + 1 ∧ (∀ q : Reg, t.reg q = s.reg q) ∧
    KeepsMemory s t ∧ t.out = s.out ∧ t.fault = s.fault

/-- The law of R86: PUSH Ra then POP Rb, for two different registers neither of them R7, copies Ra to Rb, restores SP, and
leaves the pushed byte in memory below it; no other register and no other byte changes. -/
def Obligations.PushThenPopCopies : Prop :=
  ∀ (s : State) (ra rb : Byte) (ha : ra.toNat < 7) (hb : rb.toNat < 7), ra ≠ rb →
    ∃ t u, exec (.push ra) s = .next t ∧ exec (.pop rb) t = .next u ∧
      u.reg ⟨rb.toNat, by omega⟩ = s.reg ⟨ra.toNat, by omega⟩ ∧ u.sp = s.sp ∧
      u.readMem (s.sp - 1) = s.reg ⟨ra.toNat, by omega⟩ ∧ KeepsMemoryExcept s u (s.sp - 1) ∧
      (∀ q : Reg, q.val ≠ rb.toNat → u.reg q = s.reg q) ∧ u.pc = s.pc + 4

/-- The law of R88: after a CALL at address `a`, from ANY state that has SP and the byte at SP as the CALL left them, RET
gives `pc = a + 2` and SP as before the CALL. -/
def Obligations.CallThenRetReturns : Prop :=
  ∀ (s : State) (r1 : Byte), r1.toNat < 8 →
    ∃ t, exec (.call r1) s = .next t ∧
      ∀ u : State, u.sp = t.sp → u.readMem t.sp = t.readMem t.sp →
        ∃ w, exec .ret u = .next w ∧ w.pc = s.pc + 2 ∧ w.sp = s.sp

/-! ## The ALU, registers, memory and taking a fault -/

/-- The ALU on all operands: ADD, SUB and MUL modulo 256 (the spec's decision D1, assumption 8), DIV the truncated quotient
and a failure for divisor 0 (decision D6, assumption 12). The last clause is about the model's own fifth selector, `other`
(DESIGN CHOICE, assumption 27): R75 and decision D21 give four, and R80 leaves any other to a model that gives the ALU more;
it fails as R80 says. SUB, DIV and `other` are reached by no opcode. -/
def Obligations.AluFunctions : Prop :=
  ∀ A B : Byte,
    (∃ v, alu .add A B = .ok v ∧ v.toNat = (A.toNat + B.toNat) % 256) ∧
    (∃ v, alu .sub A B = .ok v ∧ v.toNat = if B.toNat ≤ A.toNat then A.toNat - B.toNat else A.toNat + 256 - B.toNat) ∧
    (∃ v, alu .mul A B = .ok v ∧ v.toNat = (A.toNat * B.toNat) % 256) ∧
    (B.toNat ≠ 0 → ∃ v, alu .div A B = .ok v ∧ v.toNat = A.toNat / B.toNat) ∧
    (B.toNat = 0 → alu .div A B = .error .divideByZero) ∧
    alu .other A B = .error .unsupportedALUOperation

/-- R17: no register is hard-wired: each of the eight holds what is written to it, and a write changes no other register
and nothing else of the state. SP is register 7. -/
def Obligations.EveryRegisterIsWritable : Prop :=
  ∀ (s : State) (r : Reg) (v : Byte),
    (s.setReg r v).reg r = v ∧ (∀ q : Reg, q ≠ r → (s.setReg r v).reg q = s.reg q) ∧
    (s.setReg 7 v).sp = v ∧ { s.setReg r v with x := s.x } = s

/-- R41, whole: MemWrite sets the byte at its address and changes nothing else. -/
def Obligations.MemWriteSetsOneByte : Prop :=
  ∀ (s : State) (a v : Byte),
    (s.writeMem a v).readMem a = v ∧ KeepsMemoryExcept s (s.writeMem a v) a ∧
    { s.writeMem a v with mem := s.mem } = s

/-- Two memories in canonical form that read alike at the 256 addresses are the same list. -/
def Obligations.CanonicalMemoriesThatReadAlikeAreEqual : Prop :=
  ∀ m n : Memory, m.wf → n.wf → (∀ a, a < 256 → m.read a = n.read a) → m = n

/-- R91, whole: taking a fault writes the status and the fault record (code, kind, `pc` and byte) and nothing else, and no
step follows it. The record's form and the unchanged `pc` are the spec's decisions D9 and D10 (assumptions 15 and 16). -/
def Obligations.TakingFaultWritesStatusAndRecordOnly : Prop :=
  ∀ (s : State) (k : FaultKind) (b : Byte),
    s.raise k b = { s with status := .faulted, fault := some { kind := k, pc := s.pc, byte := b } } ∧
    (s.raise k b).faultCode = k.code ∧ ∀ u, step (s.raise k b) ≠ .next u

/-! ## Encoding and decoding -/

/-- Words written out from R62's table and R56's formats decode to the instructions they stand for, and two words that
name nothing are refused. -/
def Obligations.WordsOfTheTableDecode : Prop :=
  decode 0x82 0x00 0x08 = .ok (.ldi 0 8) ∧ decode 0x47 0x07 0x00 = .ok (.prn 7) ∧
  decode 0x01 0xFF 0xFF = .ok .hlt ∧ decode 0xA0 0x00 0x01 = .ok (.add 0 1) ∧
  decode 0xA2 0x07 0x00 = .ok (.mul 7 0) ∧ decode 0x45 0x03 0x00 = .ok (.push 3) ∧
  decode 0x46 0x01 0x00 = .ok (.pop 1) ∧ decode 0x50 0x01 0x00 = .ok (.call 1) ∧
  decode 0x11 0x08 0x08 = .ok .ret ∧ decode 0xA1 0x00 0x01 = .error (.unknownOpcode 0xA1) ∧
  decode 0xA0 0x0A 0x09 = .error (.invalidRegister 0x0A)

/-- R63: in all nine patterns bits 7:6 are the operand count, bit 5 marks ADD and MUL, bit 4 marks CALL and RET. -/
def Obligations.OpcodeBitsMatchOperandCount : Prop :=
  ∀ o : Opcode,
    (o.byte >>> 6).toNat = o.operandCount ∧
    (o.byte.getLsbD 5 = true ↔ o = .add ∨ o = .mul) ∧ (o.byte.getLsbD 4 = true ↔ o = .call ∨ o = .ret)

/-- Decoding the encoding of any well-formed instruction, whatever bytes follow it, gives the instruction back: no bit of
an encoding is dropped, and no byte beyond the instruction's length is looked at (R66). -/
def Obligations.DecodeOfEncodeIsIdentity : Prop :=
  ∀ i : Instr, i.wellFormed = true → ∀ tail : List Byte, decodeBytes (encode i ++ tail) = .ok i

/-- Each byte sequence has one meaning: what decodes is well-formed, and its encoding is the bytes it was decoded from. -/
def Obligations.EncodeOfDecodeIsIdentity : Prop :=
  ∀ (op op1 op2 : Byte) (i : Instr), decode op op1 op2 = .ok i →
    i.wellFormed = true ∧ ∃ rest, encode i ++ rest = [op, op1, op2]

/-- The decoder refuses exactly what R60 and R61 say, in R69's order: an opcode byte outside the nine, else `op1` of 8 or
more where it is a register operand (every opcode but HLT and RET), else `op2` of 8 or more for ADD and MUL. The order and
the register check are the spec's decisions D15 and D3 (assumptions 21 and 10). -/
def Obligations.DecoderRefusesExactly : Prop :=
  ∀ op op1 op2 : Byte,
    (op ∉ nineOpcodes → decode op op1 op2 = .error (.unknownOpcode op)) ∧
    (op ∈ nineOpcodes → op ∉ ([0x01, 0x11] : List Byte) → 8 ≤ op1.toNat →
      decode op op1 op2 = .error (.invalidRegister op1)) ∧
    (op ∈ ([0xA0, 0xA2] : List Byte) → op1.toNat < 8 → 8 ≤ op2.toNat →
      decode op op1 op2 = .error (.invalidRegister op2)) ∧
    (op ∈ nineOpcodes → (op ∉ ([0x01, 0x11] : List Byte) → op1.toNat < 8) →
      (op ∈ ([0xA0, 0xA2] : List Byte) → op2.toNat < 8) → ∃ i, decode op op1 op2 = .ok i)

/-! ## One step -/

/-- While Running, a step is `exec` of the instruction decoded from the bytes at `pc`, `pc + 1` and `pc + 2` (wrapping), at
the same state: the step itself adds nothing (the PC update stands in the instruction's meaning). -/
def Obligations.StepRunsDecodedInstruction : Prop :=
  ∀ (s : State) (i : Instr), s.status = .running →
    decode (s.readMem s.pc) (s.readMem (s.pc + 1)) (s.readMem (s.pc + 2)) = .ok i → step s = exec i s

/-- While Running, a step takes place; in any other status, none does (R53). -/
def Obligations.StepIffRunning : Prop :=
  ∀ s : State, (∃ t, step s = .next t) ↔ s.status = .running

/-- R61 and R92, whole: while Running, an opcode byte outside the nine ends the run: the step raises UnknownOpcode with the
byte and the address, changes nothing else, and no step follows. Decisions D9 and D10
(assumptions 15 and 16). -/
def Obligations.UnknownOpcodeFaults : Prop :=
  ∀ s : State, s.status = .running → s.readMem s.pc ∉ nineOpcodes →
    step s = .next { s with
      status := .faulted
      fault := some { kind := .unknownOpcode, pc := s.pc, byte := s.readMem s.pc } } ∧
    ∀ u, step { s with
      status := .faulted
      fault := some { kind := .unknownOpcode, pc := s.pc, byte := s.readMem s.pc } } ≠ .next u

/-- While Running, a register operand byte of 8 or more ends the run with InvalidRegister and that byte, `op1` before
`op2`, and nothing else changes (the spec's decisions D3 and D15, assumptions 10 and 21). -/
def Obligations.InvalidRegisterFaults : Prop :=
  ∀ s : State, s.status = .running →
    (s.readMem s.pc ∈ ([0x82, 0x47, 0xA0, 0xA2, 0x45, 0x46, 0x50] : List Byte) → 8 ≤ (s.readMem (s.pc + 1)).toNat →
      step s = .next { s with
        status := .faulted
        fault := some { kind := .invalidRegister, pc := s.pc, byte := s.readMem (s.pc + 1) } }) ∧
    (s.readMem s.pc ∈ ([0xA0, 0xA2] : List Byte) → (s.readMem (s.pc + 1)).toNat < 8 →
      8 ≤ (s.readMem (s.pc + 2)).toNat →
      step s = .next { s with
        status := .faulted
        fault := some { kind := .invalidRegister, pc := s.pc, byte := s.readMem (s.pc + 2) } })

/-- Faults are precise: a step that ends Faulted changes the status and the record alone; the record names the address of
the faulting instruction, and its kind is UnknownOpcode with the opcode byte or InvalidRegister with an operand byte of 8
or more, never one of the ALU's two failures (R94). That `pc` stays is the spec's decision D10 (assumption 16). -/
def Obligations.FaultsArePrecise : Prop :=
  ∀ s t : State, step s = .next t → t.status = .faulted →
    { t with status := s.status, fault := s.fault } = s ∧
    ((t.fault = some { kind := .unknownOpcode, pc := s.pc, byte := s.readMem s.pc } ∧
        s.readMem s.pc ∉ nineOpcodes) ∨
     ∃ k, t.fault = some { kind := .invalidRegister, pc := s.pc, byte := k } ∧ 8 ≤ k.toNat ∧
        s.readMem s.pc ∈ nineOpcodes ∧ (k = s.readMem (s.pc + 1) ∨ k = s.readMem (s.pc + 2)))

/-- R38: a step writes memory only for PUSH and CALL, and then only the one byte at the new SP, one below the old. -/
def Obligations.StepStoresOnlyAtNewTop : Prop :=
  ∀ s t : State, step s = .next t →
    KeepsMemoryExcept s t (s.sp - 1) ∧
    (s.readMem s.pc ∉ ([0x45, 0x50] : List Byte) → KeepsMemory s t)

/-- R19: the only registers a step changes are R7, for PUSH, POP, CALL and RET, and the register `op1` names, for LDI, ADD,
MUL and POP. -/
def Obligations.StepWritesOnlyNamedRegisters : Prop :=
  ∀ s t : State, step s = .next t → ∀ q : Reg, t.reg q ≠ s.reg q →
    (q = 7 ∧ s.readMem s.pc ∈ ([0x45, 0x46, 0x50, 0x11] : List Byte)) ∨
    (q.val = (s.readMem (s.pc + 1)).toNat ∧ s.readMem s.pc ∈ ([0x82, 0xA0, 0xA2, 0x46] : List Byte))

/-- R67 and R63 together: after a step that does not fault, of an opcode other than CALL and RET, `pc` is one more than the
old `pc` plus bits 7:6 of the opcode byte, wrapping at 256 (decisions D2 and D7, assumptions 9 and 13); after a fault `pc`
is the old `pc` (decision D10, assumption 16). -/
def Obligations.StepAdvancesPc : Prop :=
  ∀ s t : State, step s = .next t →
    (t.status = .faulted → t.pc = s.pc) ∧
    (t.status ≠ .faulted → s.readMem s.pc ∉ ([0x50, 0x11] : List Byte) →
      t.pc = s.pc + 1 + (s.readMem s.pc >>> 6))

/-- R102: `out` is only appended to, and only by PRN, one byte at a time, the byte of the register `op1` names. -/
def Obligations.OutputIsAppendOnlyByPrn : Prop :=
  ∀ s t : State, step s = .next t →
    t.out = s.out ∨
    (s.readMem s.pc = 0x47 ∧ ∃ h : (s.readMem (s.pc + 1)).toNat < 8,
      t.out = s.out ++ [s.reg ⟨(s.readMem (s.pc + 1)).toNat, h⟩])

/-- R25: a step leaves the status Running, Halted or Faulted; Halted exactly for HLT; the record changes only with a
fault. -/
def Obligations.StatusAfterStep : Prop :=
  ∀ s t : State, step s = .next t →
    (t.status = .running ∨ t.status = .halted ∨ t.status = .faulted) ∧
    (t.status = .halted ↔ s.readMem s.pc = 0x01) ∧ (t.status ≠ .faulted → t.fault = s.fault)

/-- R52 and R118: a byte that PUSH writes over the very next instruction is the opcode byte the next step decodes, with no
fence and no delay (the spec's decision D17, assumption 23). -/
def Obligations.PushedByteIsFetchedNext : Prop :=
  ∀ (s : State) (r1 : Byte) (h : r1.toNat < 7), s.sp - 1 = s.pc + 2 →
    ∃ t, exec (.push r1) s = .next t ∧
      t.fetchDecode = decode (s.reg ⟨r1.toNat, by omega⟩) (s.readMem (s.pc + 3)) (s.readMem (s.pc + 4))

/-- The output port is never read back (R31, R102): from two states that differ only in `out`, a step does the same, and
appends the same bytes to both. -/
def Obligations.StepDoesNotReadOutput : Prop :=
  ∀ s t : State, step s = .next t →
    ∃ w : List Byte, t.out = s.out ++ w ∧
      ∀ o : List Byte, step { s with out := o } = .next { t with out := o ++ w }

/-- What a step can learn from memory (R38, R65, R66): two states that differ only in memory, and whose bytes agree at
`pc`, `pc + 1`, `pc + 2` and SP, step to states that differ only in memory, and wherever their memories agreed they still
agree. -/
def Obligations.StepReadsOnlyFetchedBytesAndTop : Prop :=
  ∀ (s t : State) (m : Memory), step s = .next t →
    (∀ a : Byte, a ∈ [s.pc, s.pc + 1, s.pc + 2, s.sp] → m.read a.toNat = s.readMem a) →
    ∃ n : Memory, step { s with mem := m } = .next { t with mem := n } ∧
      ∀ a : Byte, m.read a.toNat = s.readMem a → n.read a.toNat = t.readMem a

/-! ## Invariants -/

/-- The state invariant holds at reset. -/
def Obligations.InvariantHoldsAtReset : Prop := State.reset.Inv

/-- Every step keeps the state invariant, from every state that has it. -/
def Obligations.StepKeepsInvariant : Prop :=
  ∀ s t : State, s.Inv → step s = .next t → t.Inv

/-- Every host transaction keeps the state invariant, refused or not. -/
def Obligations.HostTransactionKeepsInvariant : Prop :=
  ∀ (q : HostRequest) (s : State), s.Inv → (transact q s).2.Inv

/-- Every event of the whole system moves the status along an arrow of R25's table: reset to Idle from anywhere, Idle to
Loaded by load, Loaded to Running by run (nothing else changing), Running to Running, Halted or Faulted by a step; every
other event changes no state, so a terminal status is left by reset alone. -/
def Obligations.StatusMovesOnlyAlongTheTable : Prop :=
  ∀ s t : State, SysStep s t →
    t = State.reset ∨ t = s ∨ (s.status = .idle ∧ t.status = .loaded) ∨
    (s.status = .loaded ∧ t = { s with status := .running }) ∨
    (s.status = .running ∧ (t.status = .running ∨ t.status = .halted ∨ t.status = .faulted))

/-- From any state that reset, host transactions and steps reach, a run that is accepted starts at address 0 with every
register 0, nothing emitted and no fault record (R107, R108, R110, R114; reset values by decisions D4, D8, D9 and D13,
assumptions 11, 14, 15 and 19). -/
def Obligations.EveryRunStartsAtEntry : Prop :=
  ∀ s t : State, Reachable s → s.startRun = .ok t →
    t.status = .running ∧ t.pc = 0 ∧ (∀ q : Reg, t.reg q = 0) ∧ t.out = [] ∧ t.fault = none ∧ KeepsMemory s t

/-! ## Runs -/

/-- A run ends once: its outcome and its final state are determined (R121). -/
def Obligations.RunOutcomeIsUnique : Prop :=
  ∀ (s t u : State) (o p : RunOutcome), RunEnds s o t → RunEnds s p u → o = p ∧ t = u

/-- A run that has started either ends, Halted or Faulted with its record, or hangs, and not both (R116, R121). -/
def Obligations.RunEndsOrHangs : Prop :=
  ∀ s : State, s.status = .running →
    (Hangs s ∨ ∃ o t, RunEnds s o t) ∧ ¬ (Hangs s ∧ ∃ o t, RunEnds s o t)

/-- `hostRun n` is the model's bounded wait: a run() waited on for at most `n` steps (DESIGN CHOICE, assumption 32); R116's
run() blocks without a bound. For every `n`, what it returns is the outcome of the run it started and the state it leaves
is that run's final state, as R116 says of run(); from any status but Loaded it is refused and changes nothing (decision
D11, assumption 17; the statement names no reason, since the one in Running is the model's, assumption 5). -/
def Obligations.HostRunReturnsTheOutcome : Prop :=
  (∀ (n : Nat) (s t : State) (o : RunOutcome), hostRun n s = (.returned o, t) →
    s.status = .loaded ∧ RunEnds { s with status := .running } o t) ∧
  ∀ (n : Nat) (s : State), s.status ≠ .loaded → ∃ r, hostRun n s = (.refused r, s)

/-! ## The host's transactions -/

/-- The reset transaction, from any state: registers and `pc` 0, every memory byte 0, Idle, no record, nothing emitted. The
spec's decisions D4, D5, D8, D9, D13 and D23 (assumptions 11, 7, 14, 15, 19 and 28). -/
def Obligations.ResetRestoresEveryItem : Prop :=
  ∀ s : State, (transact .reset s).2 = State.reset ∧
    (∀ q : Reg, State.reset.reg q = 0) ∧ State.reset.pc = 0 ∧ (∀ a : Byte, State.reset.readMem a = 0) ∧
    State.reset.status = .idle ∧ State.reset.fault = none ∧ State.reset.out = []

/-- R114, whole: a load of 1 to 256 bytes from Idle puts byte `i` at address `i`, leaves the other cells at their reset
value, changes no register, `pc` or `out`, raises no fault, and gives the status Loaded. The invariant says that in the
status Idle memory stands at its reset contents. The status Loaded and MEM_INIT are the spec's decisions D8 and D5
(assumptions 14 and 7). -/
def Obligations.LoadPlacesProgram : Prop :=
  ∀ (s : State) (b : List Byte), s.Inv → s.status = .idle → 1 ≤ b.length → b.length ≤ 256 →
    ∃ t, transact (.load b) s = (.done, t) ∧ t.status = .loaded ∧
      (∀ (i : Nat) (h : i < b.length), t.readMem (BitVec.ofNat 8 i) = b[i]) ∧
      (∀ a : Byte, b.length ≤ a.toNat → t.readMem a = Config.memInit) ∧
      t.x = s.x ∧ t.pc = s.pc ∧ t.out = s.out ∧ t.fault = s.fault

/-- A refused load changes no state and returns its reason: EmptyProgram, ProgramTooLarge or NotIdle. Where the length and
the status are both bad, the reason is one of the two that apply and the statement does not say which (assumption 6). The
refusals are the spec's decision D12 (assumption 18). -/
def Obligations.LoadRefusals : Prop :=
  ∀ (s : State) (b : List Byte),
    (s.status = .idle → b = [] → transact (.load b) s = (.loadRefused .emptyProgram, s)) ∧
    (s.status = .idle → 256 < b.length → transact (.load b) s = (.loadRefused .programTooLarge, s)) ∧
    (s.status ≠ .idle → 1 ≤ b.length → b.length ≤ 256 → transact (.load b) s = (.loadRefused .notIdle, s)) ∧
    (s.status ≠ .idle → b = [] → transact (.load b) s = (.loadRefused .notIdle, s) ∨
      transact (.load b) s = (.loadRefused .emptyProgram, s)) ∧
    (s.status ≠ .idle → 256 < b.length → transact (.load b) s = (.loadRefused .notIdle, s) ∨
      transact (.load b) s = (.loadRefused .programTooLarge, s))

/-- The run transaction: Loaded becomes Running and nothing else changes; NotLoaded in Idle, NotRunnable in Halted and
Faulted, and a refusal in Running (whose name is the model's, assumption 5), each changing nothing. The refusals are the
spec's decision D11 (assumption 17). -/
def Obligations.RunTransaction : Prop :=
  ∀ s : State,
    (s.status = .loaded → transact .run s = (.done, { s with status := .running })) ∧
    (s.status = .idle → transact .run s = (.runRefused .notLoaded, s)) ∧
    (s.status = .halted → transact .run s = (.runRefused .notRunnable, s)) ∧
    (s.status = .faulted → transact .run s = (.runRefused .notRunnable, s)) ∧
    (s.status = .running → ∃ r, transact .run s = (.runRefused r, s))

/-- The host's reads change no state and give what R104, R25, R26 and R102 say: `pc`, the eight registers, the three bytes
at `pc` (wrapping, decision D2, assumption 9), the status and fault codes (decisions D8 and D9, assumptions 14 and 15), the
record, and the emitted bytes. -/
def Obligations.HostReadsChangeNothing : Prop :=
  ∀ s : State,
    transact .debugRead s = (.debug {
      pc := s.pc, x := s.x,
      bytes := [s.readMem s.pc, s.readMem (s.pc + 1), s.readMem (s.pc + 2)],
      status := s.status.code, fault := s.fault }, s) ∧
    transact .readStatus s = (.status s.status.code, s) ∧
    transact .readFault s = (.fault s.faultCode s.fault, s) ∧
    transact .readOutput s = (.output s.out, s)

/-- The numbers the host reads: the status codes of R25 and the fault codes of R90, code 0 meaning no fault (the spec's
decisions D8 and D9, assumptions 14 and 15). -/
def Obligations.StatusAndFaultCodes : Prop :=
  Status.idle.code = 0 ∧ Status.loaded.code = 1 ∧ Status.running.code = 2 ∧ Status.halted.code = 3 ∧
  Status.faulted.code = 4 ∧ FaultKind.unknownOpcode.code = 1 ∧ FaultKind.invalidRegister.code = 2 ∧
  FaultKind.unsupportedALUOperation.code = 3 ∧ FaultKind.divideByZero.code = 4 ∧
  ∀ s : State, s.fault = none → s.faultCode = 0

/-- The model's own way to place an instruction (assumption 3): if the decoder reads the table word as `i`, then the very
next step after `withFetchWord` is `exec i` there, with registers, `pc` and `out` as they were. -/
def Obligations.WithFetchWordRunsTheWord : Prop :=
  ∀ (s : State) (nbits w : Nat) (i : Instr), decodeTableWord nbits w = some i →
    step (s.withFetchWord nbits w) = exec i (s.withFetchWord nbits w) ∧
    (s.withFetchWord nbits w).x = s.x ∧ (s.withFetchWord nbits w).pc = s.pc ∧ (s.withFetchWord nbits w).out = s.out

/-! ## The program text -/

/-- R72: the program lines of an instruction are its bytes, each as eight binary digits, most significant first: reading
the digits back gives the encoding. -/
def Obligations.ProgramLinesSpellTheEncoding : Prop :=
  ∀ i : Instr, (programLines i).map (fun l =>
      BitVec.ofNat 8 (l.foldl (fun n c => 2 * n + (if c = '1' then 1 else 0)) 0)) = encode i ∧
    ∀ l ∈ programLines i, l.length = 8 ∧ ∀ c ∈ l, c = '0' ∨ c = '1'
end

