-- ==== Sys2Proof/Laws/Decode.lean ====
section
/-! SUPPORT. The small lemmas of the opcode map and the decoder. -/

namespace Sys2Proof

/-- The register check as arithmetic. -/
theorem namesRegister_iff (k : Byte) : namesRegister k = true ↔ k.toNat < 8 := by
  simp [namesRegister]; omega

/-- Each pattern of the opcode map is matched by its own row. -/
@[simp] theorem Opcode.ofByte?_byte (o : Opcode) : Opcode.ofByte? o.byte = some o := by
  cases o <;> rfl

/-- A byte that matches a row is that row's pattern. -/
theorem Opcode.byte_of_ofByte? {b : Byte} {o : Opcode} (h : Opcode.ofByte? b = some o) : o.byte = b := by
  have := List.find?_some h
  simpa using this

/-- A byte matches no row exactly when it is none of the nine patterns. -/
theorem Opcode.ofByte?_eq_none {b : Byte} : Opcode.ofByte? b = none ↔ ∀ o : Opcode, o.byte ≠ b := by
  unfold Opcode.ofByte?
  rw [List.find?_eq_none]
  constructor
  · intro h o
    have := h o (by cases o <;> decide)
    simpa using this
  · intro h o _
    simpa using h o

/-- Everything the decoder can answer. -/
theorem decode_cases (op op1 op2 : Byte) :
    (Opcode.ofByte? op = none ∧ decode op op1 op2 = .error (.unknownOpcode op)) ∨
    (∃ o k, Opcode.ofByte? op = some o ∧
      (o.registerOperands op1 op2).find? (fun k => 7 < k.toNat) = some k ∧
      decode op op1 op2 = .error (.invalidRegister k)) ∨
    (∃ o, Opcode.ofByte? op = some o ∧ (∀ k ∈ o.registerOperands op1 op2, k.toNat < 8) ∧
      decode op op1 op2 = .ok (o.build op1 op2)) := by
  unfold decode
  cases ho : Opcode.ofByte? op with
  | none => exact .inl ⟨rfl, rfl⟩
  | some o =>
    cases hk : (o.registerOperands op1 op2).find? (fun k => 7 < k.toNat) with
    | some k => exact .inr (.inl ⟨o, k, rfl, hk, by simp [hk]⟩)
    | none =>
      refine .inr (.inr ⟨o, rfl, ?_, by simp [hk]⟩)
      intro k hm
      have := List.find?_eq_none.1 hk k hm
      simp only [decide_eq_true_eq] at this
      omega

/-- The decoder on a pattern of the table and good register operands (R60, R62). -/
theorem decode_byte {o : Opcode} {op1 op2 : Byte} (h : ∀ k ∈ o.registerOperands op1 op2, k.toNat < 8) :
    decode o.byte op1 op2 = .ok (o.build op1 op2) := by
  unfold decode
  simp only [Opcode.ofByte?_byte]
  rw [List.find?_eq_none.2]
  intro k hk
  have := h k hk
  simp only [decide_eq_true_eq]
  omega

/-- `NOPCODES` is 9 and `MAX_OPERANDS` is 2 (R7). -/
theorem Opcode.length_all : Opcode.all.length = 9 := rfl

theorem Opcode.operandCount_le (o : Opcode) : o.operandCount ≤ 2 := by
  cases o <;> decide

/-- An instruction's own opcode and operand bytes build it again. -/
theorem Instr.build_opcode (i : Instr) : i.opcode.build (i.operands.getD 0 0) (i.operands.getD 1 0) = i := by
  cases i <;> rfl

end Sys2Proof
end

