-- ==== Sys2Proof/Laws/State.lean ====
section
/-! SUPPORT. What each update of the state does to each field: one lemma per field per update, true by `rfl`, so that no
later proof unfolds a record update. Then the accessors `reg`, `sp` and `readMem` after each update. -/

namespace Sys2Proof.Machine.State

variable (s : State)

/-! `writeMem` -/

@[simp] theorem writeMem_mem (a v : Byte) : (s.writeMem a v).mem = s.mem.write a.toNat v := rfl
@[simp] theorem writeMem_x (a v : Byte) : (s.writeMem a v).x = s.x := rfl
@[simp] theorem writeMem_pc (a v : Byte) : (s.writeMem a v).pc = s.pc := rfl
@[simp] theorem writeMem_status (a v : Byte) : (s.writeMem a v).status = s.status := rfl
@[simp] theorem writeMem_fault (a v : Byte) : (s.writeMem a v).fault = s.fault := rfl
@[simp] theorem writeMem_out (a v : Byte) : (s.writeMem a v).out = s.out := rfl

/-! `setReg` -/

@[simp] theorem setReg_mem (r : Reg) (v : Byte) : (s.setReg r v).mem = s.mem := rfl
@[simp] theorem setReg_x (r : Reg) (v : Byte) : (s.setReg r v).x = s.x.set r.val v r.isLt := rfl
@[simp] theorem setReg_pc (r : Reg) (v : Byte) : (s.setReg r v).pc = s.pc := rfl
@[simp] theorem setReg_status (r : Reg) (v : Byte) : (s.setReg r v).status = s.status := rfl
@[simp] theorem setReg_fault (r : Reg) (v : Byte) : (s.setReg r v).fault = s.fault := rfl
@[simp] theorem setReg_out (r : Reg) (v : Byte) : (s.setReg r v).out = s.out := rfl

/-! `setSp` -/

@[simp] theorem setSp_mem (v : Byte) : (s.setSp v).mem = s.mem := rfl
@[simp] theorem setSp_pc (v : Byte) : (s.setSp v).pc = s.pc := rfl
@[simp] theorem setSp_status (v : Byte) : (s.setSp v).status = s.status := rfl
@[simp] theorem setSp_fault (v : Byte) : (s.setSp v).fault = s.fault := rfl
@[simp] theorem setSp_out (v : Byte) : (s.setSp v).out = s.out := rfl

/-! `setPc` -/

@[simp] theorem setPc_mem (a : Byte) : (s.setPc a).mem = s.mem := rfl
@[simp] theorem setPc_x (a : Byte) : (s.setPc a).x = s.x := rfl
@[simp] theorem setPc_pc (a : Byte) : (s.setPc a).pc = a := rfl
@[simp] theorem setPc_status (a : Byte) : (s.setPc a).status = s.status := rfl
@[simp] theorem setPc_fault (a : Byte) : (s.setPc a).fault = s.fault := rfl
@[simp] theorem setPc_out (a : Byte) : (s.setPc a).out = s.out := rfl

/-! `advance` -/

@[simp] theorem advance_mem (n : Nat) : (s.advance n).mem = s.mem := rfl
@[simp] theorem advance_x (n : Nat) : (s.advance n).x = s.x := rfl
@[simp] theorem advance_pc (n : Nat) : (s.advance n).pc = s.pc + BitVec.ofNat 8 (1 + n) := rfl
@[simp] theorem advance_status (n : Nat) : (s.advance n).status = s.status := rfl
@[simp] theorem advance_fault (n : Nat) : (s.advance n).fault = s.fault := rfl
@[simp] theorem advance_out (n : Nat) : (s.advance n).out = s.out := rfl

/-! `emit` -/

@[simp] theorem emit_mem (v : Byte) : (s.emit v).mem = s.mem := rfl
@[simp] theorem emit_x (v : Byte) : (s.emit v).x = s.x := rfl
@[simp] theorem emit_pc (v : Byte) : (s.emit v).pc = s.pc := rfl
@[simp] theorem emit_status (v : Byte) : (s.emit v).status = s.status := rfl
@[simp] theorem emit_fault (v : Byte) : (s.emit v).fault = s.fault := rfl
@[simp] theorem emit_out (v : Byte) : (s.emit v).out = s.out ++ [v] := rfl

/-! `halt` -/

@[simp] theorem halt_mem : s.halt.mem = s.mem := rfl
@[simp] theorem halt_x : s.halt.x = s.x := rfl
@[simp] theorem halt_pc : s.halt.pc = s.pc := rfl
@[simp] theorem halt_status : s.halt.status = .halted := rfl
@[simp] theorem halt_fault : s.halt.fault = s.fault := rfl
@[simp] theorem halt_out : s.halt.out = s.out := rfl

/-! `raise` -/

@[simp] theorem raise_mem (k : FaultKind) (b : Byte) : (s.raise k b).mem = s.mem := rfl
@[simp] theorem raise_x (k : FaultKind) (b : Byte) : (s.raise k b).x = s.x := rfl
@[simp] theorem raise_pc (k : FaultKind) (b : Byte) : (s.raise k b).pc = s.pc := rfl
@[simp] theorem raise_status (k : FaultKind) (b : Byte) : (s.raise k b).status = .faulted := rfl
@[simp] theorem raise_fault (k : FaultKind) (b : Byte) : (s.raise k b).fault = some { kind := k, pc := s.pc, byte := b } := rfl
@[simp] theorem raise_out (k : FaultKind) (b : Byte) : (s.raise k b).out = s.out := rfl

/-! `decSp` -/

@[simp] theorem decSp_mem : s.decSp.mem = s.mem := rfl
@[simp] theorem decSp_pc : s.decSp.pc = s.pc := rfl
@[simp] theorem decSp_status : s.decSp.status = s.status := rfl
@[simp] theorem decSp_fault : s.decSp.fault = s.fault := rfl
@[simp] theorem decSp_out : s.decSp.out = s.out := rfl

/-! `incSp` -/

@[simp] theorem incSp_mem : s.incSp.mem = s.mem := rfl
@[simp] theorem incSp_pc : s.incSp.pc = s.pc := rfl
@[simp] theorem incSp_status : s.incSp.status = s.status := rfl
@[simp] theorem incSp_fault : s.incSp.fault = s.fault := rfl
@[simp] theorem incSp_out : s.incSp.out = s.out := rfl

/-! `storeTop` -/

@[simp] theorem storeTop_mem (v : Byte) : (s.storeTop v).mem = s.mem.write s.sp.toNat v := rfl
@[simp] theorem storeTop_x (v : Byte) : (s.storeTop v).x = s.x := rfl
@[simp] theorem storeTop_pc (v : Byte) : (s.storeTop v).pc = s.pc := rfl
@[simp] theorem storeTop_status (v : Byte) : (s.storeTop v).status = s.status := rfl
@[simp] theorem storeTop_fault (v : Byte) : (s.storeTop v).fault = s.fault := rfl
@[simp] theorem storeTop_out (v : Byte) : (s.storeTop v).out = s.out := rfl

/-! `pushValue` -/

@[simp] theorem pushValue_pc (v : Byte) : (s.pushValue v).pc = s.pc := rfl
@[simp] theorem pushValue_status (v : Byte) : (s.pushValue v).status = s.status := rfl
@[simp] theorem pushValue_fault (v : Byte) : (s.pushValue v).fault = s.fault := rfl
@[simp] theorem pushValue_out (v : Byte) : (s.pushValue v).out = s.out := rfl

/-! `pushReg` -/

@[simp] theorem pushReg_pc (r : Reg) : (s.pushReg r).pc = s.pc := rfl
@[simp] theorem pushReg_status (r : Reg) : (s.pushReg r).status = s.status := rfl
@[simp] theorem pushReg_fault (r : Reg) : (s.pushReg r).fault = s.fault := rfl
@[simp] theorem pushReg_out (r : Reg) : (s.pushReg r).out = s.out := rfl

/-! `popReg` -/

@[simp] theorem popReg_mem (r : Reg) : (s.popReg r).mem = s.mem := rfl
@[simp] theorem popReg_pc (r : Reg) : (s.popReg r).pc = s.pc := rfl
@[simp] theorem popReg_status (r : Reg) : (s.popReg r).status = s.status := rfl
@[simp] theorem popReg_fault (r : Reg) : (s.popReg r).fault = s.fault := rfl
@[simp] theorem popReg_out (r : Reg) : (s.popReg r).out = s.out := rfl

/-! Registers -/

/-- A register reads as what was last written to it, and a write leaves every other register alone. -/
@[simp] theorem reg_setReg (r q : Reg) (v : Byte) : (s.setReg r v).reg q = if q = r then v else s.reg q := by
  simp [reg, setReg, Vector.getElem_set, Fin.ext_iff, eq_comm]

@[simp] theorem reg_setSp (q : Reg) (v : Byte) :
    (s.setSp v).reg q = if q = Config.spIndex then v else s.reg q := reg_setReg s _ _ _

@[simp] theorem sp_setSp (v : Byte) : (s.setSp v).sp = v := by simp [sp]

theorem sp_setReg (r : Reg) (v : Byte) :
    (s.setReg r v).sp = if Config.spIndex = r then v else s.sp := reg_setReg s _ _ _

/-- SP is register 7. -/
@[simp] theorem reg_spIndex : s.reg Config.spIndex = s.sp := rfl

@[simp] theorem reg_writeMem (a v : Byte) (q : Reg) : (s.writeMem a v).reg q = s.reg q := rfl
@[simp] theorem reg_setPc (a : Byte) (q : Reg) : (s.setPc a).reg q = s.reg q := rfl
@[simp] theorem reg_advance (n : Nat) (q : Reg) : (s.advance n).reg q = s.reg q := rfl
@[simp] theorem reg_emit (v : Byte) (q : Reg) : (s.emit v).reg q = s.reg q := rfl
@[simp] theorem reg_halt (q : Reg) : s.halt.reg q = s.reg q := rfl
@[simp] theorem reg_raise (k : FaultKind) (b : Byte) (q : Reg) : (s.raise k b).reg q = s.reg q := rfl
@[simp] theorem reg_storeTop (v : Byte) (q : Reg) : (s.storeTop v).reg q = s.reg q := rfl

@[simp] theorem sp_writeMem (a v : Byte) : (s.writeMem a v).sp = s.sp := rfl
@[simp] theorem sp_setPc (a : Byte) : (s.setPc a).sp = s.sp := rfl
@[simp] theorem sp_advance (n : Nat) : (s.advance n).sp = s.sp := rfl
@[simp] theorem sp_emit (v : Byte) : (s.emit v).sp = s.sp := rfl
@[simp] theorem sp_halt : s.halt.sp = s.sp := rfl
@[simp] theorem sp_raise (k : FaultKind) (b : Byte) : (s.raise k b).sp = s.sp := rfl
@[simp] theorem sp_storeTop (v : Byte) : (s.storeTop v).sp = s.sp := rfl

@[simp] theorem reg_decSp (q : Reg) : s.decSp.reg q = if q = Config.spIndex then s.sp - 1 else s.reg q :=
  reg_setSp s _ _
@[simp] theorem reg_incSp (q : Reg) : s.incSp.reg q = if q = Config.spIndex then s.sp + 1 else s.reg q :=
  reg_setSp s _ _
@[simp] theorem sp_decSp : s.decSp.sp = s.sp - 1 := sp_setSp s _
@[simp] theorem sp_incSp : s.incSp.sp = s.sp + 1 := sp_setSp s _

/-! Memory reads: an update that writes no memory changes no read. -/

@[simp] theorem readMem_setReg (r : Reg) (v b : Byte) : (s.setReg r v).readMem b = s.readMem b := rfl
@[simp] theorem readMem_setSp (v b : Byte) : (s.setSp v).readMem b = s.readMem b := rfl
@[simp] theorem readMem_setPc (a b : Byte) : (s.setPc a).readMem b = s.readMem b := rfl
@[simp] theorem readMem_advance (n : Nat) (b : Byte) : (s.advance n).readMem b = s.readMem b := rfl
@[simp] theorem readMem_emit (v b : Byte) : (s.emit v).readMem b = s.readMem b := rfl
@[simp] theorem readMem_halt (b : Byte) : s.halt.readMem b = s.readMem b := rfl
@[simp] theorem readMem_raise (k : FaultKind) (c b : Byte) : (s.raise k c).readMem b = s.readMem b := rfl
@[simp] theorem readMem_decSp (b : Byte) : s.decSp.readMem b = s.readMem b := rfl
@[simp] theorem readMem_incSp (b : Byte) : s.incSp.readMem b = s.readMem b := rfl
@[simp] theorem readMem_popReg (r : Reg) (b : Byte) : (s.popReg r).readMem b = s.readMem b := rfl

end Sys2Proof.Machine.State
end

