-- ==== Sys2Proof/Laws/Memory.lean ====
section
/-! SUPPORT. The basic laws of memory: a read after a write gives what was written, a write leaves every other address
alone, and every write keeps the canonical form. -/

namespace Sys2Proof.Machine.Memory

theorem read_erase (m : Memory) (a b : Nat) :
    (m.erase a).read b = if b = a then Config.memInit else m.read b := by
  induction m with
  | nil => simp [erase, read]
  | cons c m ih =>
    obtain ⟨d, u⟩ := c
    unfold erase at ih ⊢
    by_cases hda : d = a
    · subst hda
      by_cases hb : b = d <;> simp_all [read]
    · by_cases hb : b = d
      · subst hb; simp [read, hda]
      · simp [read, hda, hb, ih]

theorem read_insert (m : Memory) (a b : Nat) (v : Byte) (h : ∀ c ∈ m, c.1 ≠ a) :
    (m.insert a v).read b = if b = a then v else m.read b := by
  induction m with
  | nil => simp [insert, read]
  | cons c m ih =>
    obtain ⟨d, u⟩ := c
    have hd : d ≠ a := h (d, u) (by simp)
    have ih := ih (fun c hc => h c (by simp [hc]))
    by_cases had : a < d
    · simp [insert, read, had]
    · by_cases hb : b = d
      · subst hb; simp [insert, read, had, hd]
      · simp [insert, read, had, hb, ih]

theorem ne_of_mem_erase {m : Memory} {a : Nat} : ∀ c ∈ m.erase a, c.1 ≠ a := by
  intro c hc
  simpa using (List.mem_filter.1 hc).2

/-- Read after write, at the same address and at every other one, on any list. -/
theorem read_write (m : Memory) (a b : Nat) (v : Byte) :
    (m.write a v).read b = if b = a then v else m.read b := by
  unfold write
  by_cases hv : v = Config.memInit
  · simp [hv, read_erase]
  · simp only [hv, if_false]
    rw [read_insert _ _ _ _ ne_of_mem_erase, read_erase]
    split <;> rfl

theorem mem_insert {m : Memory} {a : Nat} {v : Byte} {c : Host.Cell} (h : c ∈ m.insert a v) :
    c = (a, v) ∨ c ∈ m := by
  induction m with
  | nil => simpa [insert] using h
  | cons d m ih =>
    obtain ⟨d, u⟩ := d
    by_cases had : a < d
    · simpa [insert, had] using h
    · simp only [insert, had, if_false, List.mem_cons] at h ⊢
      rcases h with h | h
      · exact .inr (.inl h)
      · rcases ih h with h | h
        · exact .inl h
        · exact .inr (.inr h)

theorem pairwise_insert {m : Memory} {a : Nat} {v : Byte} (hm : m.Pairwise (fun c d => c.1 < d.1))
    (ha : ∀ c ∈ m, c.1 ≠ a) : (m.insert a v).Pairwise (fun c d => c.1 < d.1) := by
  induction m with
  | nil => simp [insert]
  | cons d m ih =>
    obtain ⟨d, u⟩ := d
    obtain ⟨hd, hm'⟩ := List.pairwise_cons.1 hm
    have hda : d ≠ a := ha (d, u) (by simp)
    by_cases had : a < d
    · simp only [insert, had, if_true, List.pairwise_cons]
      refine ⟨?_, hd, hm'⟩
      intro c hc
      rcases List.mem_cons.1 hc with rfl | hc
      · exact had
      · exact had.trans (hd c hc)
    · simp only [insert, had, if_false, List.pairwise_cons]
      refine ⟨?_, ih hm' (fun c hc => ha c (by simp [hc]))⟩
      intro c hc
      rcases mem_insert hc with rfl | hc
      · simp only; omega
      · exact hd c hc

theorem wf_erase {m : Memory} (a : Nat) (h : m.wf) : (m.erase a).wf :=
  ⟨h.1.filter _, fun c hc => h.2 c (List.mem_of_mem_filter hc)⟩

/-- A write inside the address space keeps the canonical form. -/
theorem wf_write {m : Memory} {a : Nat} (v : Byte) (ha : a < Config.memSize) (h : m.wf) : (m.write a v).wf := by
  unfold write
  by_cases hv : v = Config.memInit
  · simpa only [hv, if_true] using wf_erase a h
  · simp only [hv, if_false]
    refine ⟨pairwise_insert (wf_erase a h).1 ne_of_mem_erase, ?_⟩
    intro c hc
    rcases mem_insert hc with rfl | hc
    · exact ⟨ha, hv⟩
    · exact (wf_erase a h).2 c hc

end Sys2Proof.Machine.Memory

namespace Sys2Proof.Machine.State

variable (s : State)

/-- A byte written is the byte read there, and no other address changes (R40, R41). -/
@[simp] theorem readMem_writeMem (a v b : Byte) :
    (s.writeMem a v).readMem b = if b = a then v else s.readMem b := by
  simp [readMem, writeMem, Memory.read_write, BitVec.toNat_inj]

@[simp] theorem readMem_storeTop (v b : Byte) :
    (s.storeTop v).readMem b = if b = s.sp then v else s.readMem b := readMem_writeMem s _ _ _

theorem wf_writeMem (a v : Byte) (h : s.mem.wf) : (s.writeMem a v).mem.wf :=
  Memory.wf_write v a.isLt h

theorem wf_placeBytes (bs : List Byte) (a : Byte) (h : s.mem.wf) : (s.placeBytes a bs).mem.wf := by
  induction bs generalizing s a with
  | nil => exact h
  | cons b bs ih => exact ih _ _ (wf_writeMem s a b h)

end Sys2Proof.Machine.State
end

