-- ==== Sys2Proof/Laws/Ops.lean ====
section
/-! SUPPORT. One lemma per shared operation that says once everything it can do, which proofs cite instead of
unfolding the operation. -/

namespace Sys2Proof.Machine

/-! Narrowing -/

@[simp] theorem wrap8_toNat (n : Nat) : (wrap8 (n : Int)).toNat = n % 256 := by
  simp [wrap8]

/-! The register operand -/

/-- A register operand of 0 to 7 names that register. -/
theorem withRegister_of_lt {k : Byte} (h : k.toNat < 8) (s : State) (use : Reg → Result) :
    withRegister k s use = use ⟨k.toNat, h⟩ := dif_pos h

/-- A register operand of 8 to 255 raises InvalidRegister with that byte, whatever was to be done with it. -/
theorem withRegister_of_ge {k : Byte} (h : 8 ≤ k.toNat) (s : State) (use : Reg → Result) :
    withRegister k s use = .next (s.raise .invalidRegister k) := dif_neg (by omega)

/-- The two cases of a register operand. -/
theorem withRegister_cases (k : Byte) (s : State) (use : Reg → Result) :
    (∃ h : k.toNat < 8, withRegister k s use = use ⟨k.toNat, h⟩) ∨
    (8 ≤ k.toNat ∧ withRegister k s use = .next (s.raise .invalidRegister k)) := by
  by_cases h : k.toNat < 8
  · exact .inl ⟨h, withRegister_of_lt h s use⟩
  · exact .inr ⟨by omega, withRegister_of_ge (by omega) s use⟩

/-! Stack operations -/

namespace State

variable (s : State)

@[simp] theorem reg_pushValue (v : Byte) (q : Reg) :
    (s.pushValue v).reg q = if q = Config.spIndex then s.sp - 1 else s.reg q := by simp [pushValue]
@[simp] theorem sp_pushValue (v : Byte) : (s.pushValue v).sp = s.sp - 1 := by simp [pushValue]
@[simp] theorem readMem_pushValue (v b : Byte) :
    (s.pushValue v).readMem b = if b = s.sp - 1 then v else s.readMem b := by simp [pushValue]

@[simp] theorem reg_pushReg (r q : Reg) :
    (s.pushReg r).reg q = if q = Config.spIndex then s.sp - 1 else s.reg q := by simp [pushReg]
@[simp] theorem sp_pushReg (r : Reg) : (s.pushReg r).sp = s.sp - 1 := by simp [pushReg]
@[simp] theorem readMem_pushReg (r : Reg) (b : Byte) :
    (s.pushReg r).readMem b =
      if b = s.sp - 1 then (if r = Config.spIndex then s.sp - 1 else s.reg r) else s.readMem b := by simp [pushReg]

@[simp] theorem popValue_fst : s.popValue.1 = s.readMem s.sp := rfl
@[simp] theorem popValue_snd : s.popValue.2 = s.incSp := rfl

@[simp] theorem sp_popReg (r : Reg) :
    (s.popReg r).sp = (if Config.spIndex = r then s.readMem s.sp else s.sp) + 1 := by
  simp [popReg, sp_setReg]
@[simp] theorem reg_popReg (r q : Reg) :
    (s.popReg r).reg q =
      if q = Config.spIndex then (if Config.spIndex = r then s.readMem s.sp else s.sp) + 1
      else if q = r then s.readMem s.sp else s.reg q := by
  simp [popReg, sp_setReg]

/-! Placing bytes changes memory alone. -/

@[simp] theorem placeBytes_x (bs : List Byte) (a : Byte) : (s.placeBytes a bs).x = s.x := by
  induction bs generalizing s a with
  | nil => rfl
  | cons b bs ih => simpa [placeBytes] using ih (s.writeMem a b) (a + 1)
@[simp] theorem placeBytes_pc (bs : List Byte) (a : Byte) : (s.placeBytes a bs).pc = s.pc := by
  induction bs generalizing s a with
  | nil => rfl
  | cons b bs ih => simpa [placeBytes] using ih (s.writeMem a b) (a + 1)
@[simp] theorem placeBytes_status (bs : List Byte) (a : Byte) : (s.placeBytes a bs).status = s.status := by
  induction bs generalizing s a with
  | nil => rfl
  | cons b bs ih => simpa [placeBytes] using ih (s.writeMem a b) (a + 1)
@[simp] theorem placeBytes_fault (bs : List Byte) (a : Byte) : (s.placeBytes a bs).fault = s.fault := by
  induction bs generalizing s a with
  | nil => rfl
  | cons b bs ih => simpa [placeBytes] using ih (s.writeMem a b) (a + 1)
@[simp] theorem placeBytes_out (bs : List Byte) (a : Byte) : (s.placeBytes a bs).out = s.out := by
  induction bs generalizing s a with
  | nil => rfl
  | cons b bs ih => simpa [placeBytes] using ih (s.writeMem a b) (a + 1)

/-- What a decode refusal raises: in each case the shared fault entry with the offending byte. -/
theorem raiseDecode_eq (e : DecodeError) :
    (∃ op, e = .unknownOpcode op ∧ s.raiseDecode e = s.raise .unknownOpcode op) ∨
    (∃ k, e = .invalidRegister k ∧ s.raiseDecode e = s.raise .invalidRegister k) := by
  cases e with
  | unknownOpcode op => exact .inl ⟨op, rfl, rfl⟩
  | invalidRegister k => exact .inr ⟨k, rfl, rfl⟩

end State

/-! The ALU instructions -/

/-- ADD and MUL with two good operands: the ALU's result goes to `r1` and `pc` moves past three bytes. -/
theorem aluInstr_of_ok {f : AluFn} {r1 r2 v : Byte} {s : State} (h1 : r1.toNat < 8) (h2 : r2.toNat < 8)
    (h : alu f (s.reg ⟨r1.toNat, h1⟩) (s.reg ⟨r2.toNat, h2⟩) = .ok v) :
    aluInstr f r1 r2 s = .next ((s.setReg ⟨r1.toNat, h1⟩ v).advance 2) := by
  simp [aluInstr, withRegister_of_lt h1, withRegister_of_lt h2, h]

/-! One step -/

/-- Everything a step can do: it needs the status Running, and it either raises the decoder's refusal or executes the
decoded instruction. -/
theorem step_cases {s t : State} (h : step s = .next t) :
    s.status = .running ∧
      ((∃ e, s.fetchDecode = .error e ∧ t = s.raiseDecode e) ∨
       (∃ i, s.fetchDecode = .ok i ∧ exec i s = .next t)) := by
  unfold step at h
  split at h <;> rename_i hs
  · refine ⟨hs, ?_⟩
    split at h <;> rename_i i hd
    · exact .inr ⟨i, hd, h⟩
    · exact .inl ⟨i, hd, by cases h; rfl⟩
  all_goals cases h

end Sys2Proof.Machine
end

