-- ==== Sys2Proof/Laws/Exec.lean ====
section
/-! SUPPORT. What each meaning answers on good and on bad register operands, and the inversion of one step: every later
proof about a step starts from `step_inv` and `exec_inv`, not from the definitions. -/

namespace Sys2Proof.Machine

/-! Good operands -/

section Good
variable {r1 r2 : Byte} (s : State)

theorem exec_ldi_of_lt (h : r1.toNat < 8) (imm : Byte) :
    exec (.ldi r1 imm) s = .next ((s.setReg ⟨r1.toNat, h⟩ imm).advance 2) := by
  simp only [exec, execLdi, withRegister_of_lt h]

theorem exec_prn_of_lt (h : r1.toNat < 8) :
    exec (.prn r1) s = .next ((s.emit (s.reg ⟨r1.toNat, h⟩)).advance 1) := by
  simp only [exec, execPrn, withRegister_of_lt h]

theorem exec_add_of_lt (h1 : r1.toNat < 8) (h2 : r2.toNat < 8) :
    exec (.add r1 r2) s = .next ((s.setReg ⟨r1.toNat, h1⟩
      (wrap8 (((s.reg ⟨r1.toNat, h1⟩).toNat : Int) + (s.reg ⟨r2.toNat, h2⟩).toNat))).advance 2) := by
  unfold exec execAdd
  exact aluInstr_of_ok h1 h2 rfl

theorem exec_mul_of_lt (h1 : r1.toNat < 8) (h2 : r2.toNat < 8) :
    exec (.mul r1 r2) s = .next ((s.setReg ⟨r1.toNat, h1⟩
      (wrap8 (((s.reg ⟨r1.toNat, h1⟩).toNat : Int) * (s.reg ⟨r2.toNat, h2⟩).toNat))).advance 2) := by
  unfold exec execMul
  exact aluInstr_of_ok h1 h2 rfl

theorem exec_push_of_lt (h : r1.toNat < 8) :
    exec (.push r1) s = .next ((s.pushReg ⟨r1.toNat, h⟩).advance 1) := by
  simp only [exec, execPush, withRegister_of_lt h]

theorem exec_pop_of_lt (h : r1.toNat < 8) :
    exec (.pop r1) s = .next ((s.popReg ⟨r1.toNat, h⟩).advance 1) := by
  simp only [exec, execPop, withRegister_of_lt h]

theorem exec_call_of_lt (h : r1.toNat < 8) :
    exec (.call r1) s =
      .next ((s.pushValue (s.pc + 2)).setPc ((s.pushValue (s.pc + 2)).reg ⟨r1.toNat, h⟩)) := by
  simp only [exec, execCall, withRegister_of_lt h]

theorem exec_ret : exec .ret s = .next (s.incSp.setPc (s.readMem s.sp)) := rfl

theorem exec_hlt : exec .hlt s = .next (s.halt.advance 0) := rfl

end Good

/-! Bad operands -/

/-- An instruction with a register operand of 8 or more raises the same fault that the decoder raises for its bytes: the
first bad register operand, `op1` before `op2` (R69). -/
theorem exec_of_bad_register (i : Instr) (k : Byte) (s : State)
    (h : (i.opcode.registerOperands (i.operands.getD 0 0) (i.operands.getD 1 0)).find?
      (fun k => 7 < k.toNat) = some k) :
    exec i s = .next (s.raise .invalidRegister k) := by
  have one : ∀ (r : Byte) (use : Reg → Result), [r].find? (fun k => decide (7 < k.toNat)) = some k →
      withRegister r s use = .next (s.raise .invalidRegister k) := by
    intro r use hr
    have hk : k = r := by simpa using List.mem_of_find?_eq_some hr
    have h7 : 7 < k.toNat := by simpa using List.find?_some hr
    subst hk
    exact withRegister_of_ge h7 s use
  have two : ∀ (f : AluFn) (r q : Byte), [r, q].find? (fun k => decide (7 < k.toNat)) = some k →
      aluInstr f r q s = .next (s.raise .invalidRegister k) := by
    intro f r q hr
    unfold aluInstr
    by_cases h8 : r.toNat < 8
    · rw [withRegister_of_lt h8]
      refine one q _ ?_
      rwa [List.find?_cons_of_neg] at hr
      simp only [decide_eq_true_eq]; omega
    · rw [withRegister_of_ge (by omega)]
      rw [List.find?_cons_of_pos] at hr
      · cases hr; rfl
      · simp only [decide_eq_true_eq]; omega
  cases i with
  | hlt => cases h
  | ret => cases h
  | add r1 r2 => exact two .add r1 r2 h
  | mul r1 r2 => exact two .mul r1 r2 h
  | ldi r1 imm => unfold exec execLdi; exact one _ _ h
  | prn r1 => unfold exec execPrn; exact one _ _ h
  | push r1 => unfold exec execPush; exact one _ _ h
  | pop r1 => unfold exec execPop; exact one _ _ h
  | call r1 => unfold exec execCall; exact one _ _ h

/-! Inversion -/

/-- What an opcode with good register operands does to a state, in terms of the named operations. -/
def Effect (s t : State) (op1 op2 : Byte) : Opcode → Prop
  | .ldi => ∃ h : op1.toNat < 8, t = (s.setReg ⟨op1.toNat, h⟩ op2).advance 2
  | .prn => ∃ h : op1.toNat < 8, t = (s.emit (s.reg ⟨op1.toNat, h⟩)).advance 1
  | .hlt => t = s.halt.advance 0
  | .add => ∃ (h : op1.toNat < 8) (v : Byte), t = (s.setReg ⟨op1.toNat, h⟩ v).advance 2
  | .mul => ∃ (h : op1.toNat < 8) (v : Byte), t = (s.setReg ⟨op1.toNat, h⟩ v).advance 2
  | .push => ∃ h : op1.toNat < 8, t = (s.pushReg ⟨op1.toNat, h⟩).advance 1
  | .pop => ∃ h : op1.toNat < 8, t = (s.popReg ⟨op1.toNat, h⟩).advance 1
  | .call => ∃ h : op1.toNat < 8,
      t = (s.pushValue (s.pc + 2)).setPc ((s.pushValue (s.pc + 2)).reg ⟨op1.toNat, h⟩)
  | .ret => t = s.incSp.setPc (s.readMem s.sp)

/-- No opcode's effect touches the fault record, and only HLT's touches the status. -/
theorem Effect.runState {s t : State} {o : Opcode} {op1 op2 : Byte} (h : Effect s t op1 op2 o) :
    t.fault = s.fault ∧ t.status = if o = .hlt then .halted else s.status := by
  cases o <;> unfold Effect at h
  case hlt => subst h; exact ⟨rfl, rfl⟩
  case ret => subst h; exact ⟨rfl, rfl⟩
  case add => obtain ⟨_, _, rfl⟩ := h; exact ⟨rfl, rfl⟩
  case mul => obtain ⟨_, _, rfl⟩ := h; exact ⟨rfl, rfl⟩
  all_goals obtain ⟨_, rfl⟩ := h; exact ⟨rfl, rfl⟩

/-- Every opcode's effect keeps memory in its canonical form. -/
theorem Effect.memWf {s t : State} {o : Opcode} {op1 op2 : Byte} (h : Effect s t op1 op2 o) (hw : s.mem.wf) :
    t.mem.wf := by
  cases o <;> unfold Effect at h
  case push => obtain ⟨_, rfl⟩ := h; exact State.wf_writeMem _ _ _ hw
  case call => obtain ⟨_, rfl⟩ := h; exact State.wf_writeMem _ _ _ hw
  case hlt => subst h; exact hw
  case ret => subst h; exact hw
  case add => obtain ⟨_, _, rfl⟩ := h; exact hw
  case mul => obtain ⟨_, _, rfl⟩ := h; exact hw
  all_goals obtain ⟨_, rfl⟩ := h; exact hw

/-- With good register operands, `exec` answers a next state, and that state is the opcode's effect. -/
theorem exec_inv {o : Opcode} {op1 op2 : Byte} (h : ∀ k ∈ o.registerOperands op1 op2, k.toNat < 8) (s : State) :
    ∃ t, exec (o.build op1 op2) s = .next t ∧ Effect s t op1 op2 o := by
  cases o <;>
    simp only [Opcode.registerOperands, List.mem_cons, List.not_mem_nil, or_false, forall_eq, forall_eq_or_imp] at h
  case ldi => exact ⟨_, exec_ldi_of_lt s h op2, h, rfl⟩
  case prn => exact ⟨_, exec_prn_of_lt s h, h, rfl⟩
  case hlt => exact ⟨_, exec_hlt s, rfl⟩
  case add => exact ⟨_, exec_add_of_lt s h.1 h.2, h.1, _, rfl⟩
  case mul => exact ⟨_, exec_mul_of_lt s h.1 h.2, h.1, _, rfl⟩
  case push => exact ⟨_, exec_push_of_lt s h, h, rfl⟩
  case pop => exact ⟨_, exec_pop_of_lt s h, h, rfl⟩
  case call => exact ⟨_, exec_call_of_lt s h, h, rfl⟩
  case ret => exact ⟨_, exec_ret s, rfl⟩

/-- A byte matches a row of the opcode map exactly when it is one of the nine. -/
theorem ofByte?_eq_none_iff {b : Byte} : Opcode.ofByte? b = none ↔ b ∉ nineOpcodes := by
  rw [Opcode.ofByte?_eq_none]
  constructor
  · intro h hm
    simp only [nineOpcodes, List.mem_cons, List.not_mem_nil, or_false] at hm
    rcases hm with rfl | rfl | rfl | rfl | rfl | rfl | rfl | rfl | rfl
    · exact h .hlt rfl
    · exact h .ret rfl
    · exact h .push rfl
    · exact h .pop rfl
    · exact h .prn rfl
    · exact h .call rfl
    · exact h .ldi rfl
    · exact h .add rfl
    · exact h .mul rfl
  · rintro h o rfl
    exact h (by cases o <;> decide)

/-- Everything one step can do, by the bytes at `pc`: an unknown opcode, a bad register operand, or an opcode's effect. -/
theorem step_inv {s t : State} (h : step s = .next t) :
    s.status = .running ∧
    ((s.readMem s.pc ∉ nineOpcodes ∧ t = s.raise .unknownOpcode (s.readMem s.pc)) ∨
     (∃ o k, s.readMem s.pc = Opcode.byte o ∧ 8 ≤ k.toNat ∧
        k ∈ o.registerOperands (s.readMem (s.pc + 1)) (s.readMem (s.pc + 2)) ∧ t = s.raise .invalidRegister k) ∨
     (∃ o, s.readMem s.pc = Opcode.byte o ∧
        (∀ k ∈ o.registerOperands (s.readMem (s.pc + 1)) (s.readMem (s.pc + 2)), k.toNat < 8) ∧
        Effect s t (s.readMem (s.pc + 1)) (s.readMem (s.pc + 2)) o)) := by
  obtain ⟨hs, h⟩ := step_cases h
  refine ⟨hs, ?_⟩
  unfold State.fetchDecode at h
  rcases decode_cases (s.readMem s.pc) (s.readMem (s.pc + 1)) (s.readMem (s.pc + 2)) with
    ⟨ho, hd⟩ | ⟨o, k, ho, hk, hd⟩ | ⟨o, ho, hk, hd⟩
  all_goals rw [hd] at h
  · obtain ⟨e, he, rfl⟩ | ⟨i, he, _⟩ := h <;> cases he
    exact .inl ⟨ofByte?_eq_none_iff.1 ho, rfl⟩
  · obtain ⟨e, he, rfl⟩ | ⟨i, he, _⟩ := h <;> cases he
    refine .inr (.inl ⟨o, k, (Opcode.byte_of_ofByte? ho).symm, ?_, List.mem_of_find?_eq_some hk, rfl⟩)
    have := List.find?_some hk
    simp only [decide_eq_true_eq] at this
    omega
  · obtain ⟨e, he, _⟩ | ⟨i, he, hx⟩ := h <;> cases he
    obtain ⟨u, hu, he⟩ := exec_inv hk s
    rw [hu] at hx
    cases hx
    exact .inr (.inr ⟨o, (Opcode.byte_of_ofByte? ho).symm, hk, he⟩)

end Sys2Proof.Machine
end

