-- ==== Sys2Proof/Laws/Host.lean ====
section
/-! SUPPORT. What an accepted transaction is, and the two laws of running for a number of steps. -/

namespace Sys2Proof.Machine

/-- Everything an accepted load can be (R114). -/
theorem State.load_ok {s t : State} {b : List Byte} (h : s.load b = .ok t) :
    s.status = .idle ∧ 1 ≤ b.length ∧ b.length ≤ Config.memSize ∧ t = { s.placeBytes 0 b with status := .loaded } := by
  unfold State.load at h
  split at h
  · cases h
  · rename_i hr
    cases h
    unfold loadRefusal? loadLengthRefusal? at hr
    by_cases hi : s.status = .idle
    · rw [if_pos hi] at hr
      by_cases h0 : b.length = 0
      · rw [if_pos h0] at hr; cases hr
      · rw [if_neg h0] at hr
        by_cases h2 : Config.memSize < b.length
        · rw [if_pos h2] at hr; cases hr
        · exact ⟨hi, Nat.one_le_iff_ne_zero.2 h0, not_lt.1 h2, rfl⟩
    · rw [if_neg hi] at hr
      split at hr
      · cases hr
      · split at hr <;> cases hr

/-- Everything an accepted run can be (R116). -/
theorem State.startRun_ok {s t : State} (h : s.startRun = .ok t) :
    s.status = .loaded ∧ t = { s with status := .running } := by
  unfold State.startRun at h
  split at h <;> cases h
  exact ⟨‹_›, rfl⟩

/-- No number of steps moves a state whose status is not Running (R53, R99). -/
theorem runSteps_of_not_running {s : State} (h : s.status ≠ .running) (n : Nat) : runSteps n s = s := by
  cases n with
  | zero => rfl
  | succ n =>
    unfold runSteps
    split
    · exact absurd (step_cases ‹_›).1 h
    · rfl
    · rfl

/-- A state with an outcome is not Running. -/
theorem State.not_running_of_outcome {t : State} {o : RunOutcome} (h : t.outcome? = some o) : t.status ≠ .running := by
  intro e
  simp [State.outcome?, e] at h

end Sys2Proof.Machine
end

