-- ==== Sys2Proof/Laws/PerInstr.lean ====
section
/-! SUPPORT. Statements about every instruction as syntax, one lemma per constructor. -/

/-- The encoding's length is one opcode byte and the operand bytes its opcode asks for (R55, R56). -/
def Sys2Proof.Laws.EncodeLength.Statement (i : Sys2Proof.Instr) : Prop :=
  (Sys2Proof.encode i).length = 1 + i.opcode.operandCount

namespace Sys2Proof.Laws.EncodeLength

theorem ldi (r1 imm : Byte) : Statement (.ldi r1 imm) := rfl
theorem prn (r1 : Byte) : Statement (.prn r1) := rfl
theorem hlt : Statement .hlt := rfl
theorem add (r1 r2 : Byte) : Statement (.add r1 r2) := rfl
theorem mul (r1 r2 : Byte) : Statement (.mul r1 r2) := rfl
theorem push (r1 : Byte) : Statement (.push r1) := rfl
theorem pop (r1 : Byte) : Statement (.pop r1) := rfl
theorem call (r1 : Byte) : Statement (.call r1) := rfl
theorem ret : Statement .ret := rfl

end Sys2Proof.Laws.EncodeLength

/-- Well-formed means what the decoder checks: every register operand of the instruction is 0 to 7 (R60, R69). -/
def Sys2Proof.Laws.RegisterCheck.Statement (i : Sys2Proof.Instr) : Prop :=
  i.wellFormed = true ↔
    ∀ k ∈ i.opcode.registerOperands (i.operands.getD 0 0) (i.operands.getD 1 0), k.toNat < 8

namespace Sys2Proof.Laws.RegisterCheck

theorem ldi (r1 imm : Byte) : Statement (.ldi r1 imm) := by
  simp [Statement, Instr.wellFormed, namesRegister_iff, Instr.opcode, Instr.operands, Opcode.registerOperands]
theorem prn (r1 : Byte) : Statement (.prn r1) := by
  simp [Statement, Instr.wellFormed, namesRegister_iff, Instr.opcode, Instr.operands, Opcode.registerOperands]
theorem hlt : Statement .hlt := by
  simp [Statement, Instr.wellFormed, Instr.opcode, Instr.operands, Opcode.registerOperands]
theorem add (r1 r2 : Byte) : Statement (.add r1 r2) := by
  simp [Statement, Instr.wellFormed, namesRegister_iff, Instr.opcode, Instr.operands, Opcode.registerOperands]
theorem mul (r1 r2 : Byte) : Statement (.mul r1 r2) := by
  simp [Statement, Instr.wellFormed, namesRegister_iff, Instr.opcode, Instr.operands, Opcode.registerOperands]
theorem push (r1 : Byte) : Statement (.push r1) := by
  simp [Statement, Instr.wellFormed, namesRegister_iff, Instr.opcode, Instr.operands, Opcode.registerOperands]
theorem pop (r1 : Byte) : Statement (.pop r1) := by
  simp [Statement, Instr.wellFormed, namesRegister_iff, Instr.opcode, Instr.operands, Opcode.registerOperands]
theorem call (r1 : Byte) : Statement (.call r1) := by
  simp [Statement, Instr.wellFormed, namesRegister_iff, Instr.opcode, Instr.operands, Opcode.registerOperands]
theorem ret : Statement .ret := by
  simp [Statement, Instr.wellFormed, Instr.opcode, Instr.operands, Opcode.registerOperands]

end Sys2Proof.Laws.RegisterCheck
end

