-- ==== Sys2Proof/Tests/Slice0.lean ====
section
/-! SUPPORT. The model's own tests: the WellFormed smoke test, words written out from the spec's encodings, one-step tests
whose expected results are the spec's vectors (95_test_vectors.md), and for every statement with hypotheses a witness that
meets them together. -/

namespace Sys2Proof.Tests

open Sys2Proof.Machine

/-! ## WellFormed refuses an ill-formed term of each check -/

theorem test_wf_refuses_ldi : (Instr.ldi 8 0).wellFormed = false := by decide
theorem test_wf_refuses_prn : (Instr.prn 255).wellFormed = false := by decide
theorem test_wf_refuses_add_op1 : (Instr.add 10 0).wellFormed = false := by decide
theorem test_wf_refuses_add_op2 : (Instr.add 0 9).wellFormed = false := by decide
theorem test_wf_refuses_mul_op1 : (Instr.mul 8 7).wellFormed = false := by decide
theorem test_wf_refuses_mul_op2 : (Instr.mul 7 8).wellFormed = false := by decide
theorem test_wf_refuses_push : (Instr.push 8).wellFormed = false := by decide
theorem test_wf_refuses_pop : (Instr.pop 128).wellFormed = false := by decide
theorem test_wf_refuses_call : (Instr.call 9).wellFormed = false := by decide
theorem test_wf_accepts_any_immediate : (Instr.ldi 7 255).wellFormed = true := by decide

/-! ## Every constructor's word, bit by bit from R62 and R56 -/

theorem test_decode_ldi : decode 0b10000010 0b00000011 0b11111111 = .ok (.ldi 3 255) := by decide
theorem test_decode_prn : decode 0b01000111 0b00000010 0b00000000 = .ok (.prn 2) := by decide
theorem test_decode_hlt : decode 0b00000001 0b11111111 0b11111111 = .ok .hlt := by decide
theorem test_decode_add : decode 0b10100000 0b00000000 0b00000001 = .ok (.add 0 1) := by decide
theorem test_decode_mul : decode 0b10100010 0b00000111 0b00000000 = .ok (.mul 7 0) := by decide
theorem test_decode_push : decode 0b01000101 0b00000110 0b00000000 = .ok (.push 6) := by decide
theorem test_decode_pop : decode 0b01000110 0b00000001 0b00000000 = .ok (.pop 1) := by decide
theorem test_decode_call : decode 0b01010000 0b00000101 0b00000000 = .ok (.call 5) := by decide
theorem test_decode_ret : decode 0b00010001 0b00001000 0b00001000 = .ok .ret := by decide
/-- Bytes a reader of LS-8 might expect (V45, V46), the unloaded cell (V44) and the document's own example (S6). -/
theorem test_decode_refuses_unknown :
    decode 0xA1 0 1 = .error (.unknownOpcode 0xA1) ∧ decode 0x54 0 0 = .error (.unknownOpcode 0x54) ∧
    decode 0x00 0 0 = .error (.unknownOpcode 0x00) ∧ decode 0xFF 0 0 = .error (.unknownOpcode 0xFF) := by decide
/-- V17, V18: `op1` is checked first (R69). -/
theorem test_decode_refuses_register :
    decode 0xA0 0x0A 0x09 = .error (.invalidRegister 0x0A) ∧
    decode 0xA0 0x00 0x09 = .error (.invalidRegister 0x09) := by decide
/-- The table word of LDI R3, 255: its first byte in bits 7..0. -/
theorem test_table_word : decodeTableWord 24 0xFF0382 = some (.ldi 3 255) ∧ decodeTableWord 8 0xFF0382 = some (.ldi 0 0) := by
  decide

/-! ## One step on a small state -/

/-- A running state: `pc`, some registers and some memory bytes, everything else as at reset. -/
def start (pc : Byte) (regs : List (Reg × Byte)) (cells : List (Byte × Byte)) : State :=
  cells.foldl (fun s c => s.writeMem c.1 c.2)
    (regs.foldl (fun s r => s.setReg r.1 r.2) { State.reset with pc := pc, status := .running })

/-- Whether an outcome is a next state of which a check holds. -/
def nextIs (o : Result) (p : State → Bool) : Bool :=
  match o with
  | .next t => p t
  | .fault _ => false
  | .refused _ => false

/-- V4: the immediate's address and the next `pc` wrap. -/
theorem test_ldi_wraps : nextIs (step (start 254 [] [(254, 0x82), (255, 0x00), (0, 0x09)]))
    (fun t => t.reg 0 == 9 && t.pc == 1) = true := by decide
/-- V2: LDI R7 sets SP. -/
theorem test_ldi_sets_sp : nextIs (step (start 0 [] [(0, 0x82), (1, 0x07), (2, 0xF4)]))
    (fun t => t.sp == 244 && t.pc == 3) = true := by decide
/-- V9: PRN R7 at 255. -/
theorem test_prn_wraps : nextIs (step (start 255 [(7, 77)] [(255, 0x47), (0, 0x07)]))
    (fun t => t.out == [77] && t.pc == 1) = true := by decide
/-- V10: a bad register; nothing is emitted. -/
theorem test_prn_bad_register : nextIs (step (start 0 [] [(0, 0x47), (1, 0xFF)]))
    (fun t => t.status == .faulted && t.out == [] && t.pc == 0 &&
      t.fault == some { kind := .invalidRegister, pc := 0, byte := 0xFF }) = true := by decide
/-- V13: 200 + 100 = 44 modulo 256; the source register stays. -/
theorem test_add_wraps : nextIs (step (start 0 [(0, 200), (1, 100)] [(0, 0xA0), (2, 0x01)]))
    (fun t => t.reg 0 == 44 && t.reg 1 == 100 && t.pc == 3) = true := by decide
/-- V14: both operands are the same register. -/
theorem test_add_same_register : nextIs (step (start 0 [(0, 100)] [(0, 0xA0)])) (fun t => t.reg 0 == 200) = true := by
  decide
/-- V24: R1 squared, 400 modulo 256. -/
theorem test_mul_squares : nextIs (step (start 0 [(1, 20)] [(0, 0xA2), (1, 0x01), (2, 0x01)]))
    (fun t => t.reg 1 == 144 && t.pc == 3) = true := by decide
/-- V21: 255 × 255 = 1 modulo 256. -/
theorem test_mul_low_byte : nextIs (step (start 0 [(0, 255), (1, 255)] [(0, 0xA2), (2, 0x01)]))
    (fun t => t.reg 0 == 1 && t.reg 1 == 255) = true := by decide
/-- V28: PUSH R7 writes the decremented SP. -/
theorem test_push_sp : nextIs (step (start 0 [(7, 240)] [(0, 0x45), (1, 0x07)]))
    (fun t => t.sp == 239 && t.readMem 239 == 239 && t.pc == 2) = true := by decide
/-- V26: the first push from SP = 0 goes to 255. -/
theorem test_push_wraps : nextIs (step (start 0 [(0, 42)] [(0, 0x45)]))
    (fun t => t.sp == 255 && t.readMem 255 == 42) = true := by decide
/-- V31: POP R7 loads SP, then increments it. -/
theorem test_pop_sp : nextIs (step (start 0 [(7, 240)] [(0, 0x46), (1, 0x07), (240, 10)]))
    (fun t => t.sp == 11 && t.pc == 2) = true := by decide
/-- V30: SP wraps from 255 to 0 and the byte stays in memory. -/
theorem test_pop_wraps : nextIs (step (start 0 [(7, 255)] [(0, 0x46), (1, 0x01), (255, 42)]))
    (fun t => t.reg 1 == 42 && t.sp == 0 && t.readMem 255 == 42) = true := by decide
/-- V36: a CALL at 255 takes its operand from 0, pushes 1 over its own opcode, and still jumps. -/
theorem test_call_wraps : nextIs (step (start 255 [(1, 40)] [(255, 0x50), (0, 0x01)]))
    (fun t => t.sp == 255 && t.readMem 255 == 1 && t.pc == 40) = true := by decide
/-- V37: CALL R7 jumps to the decremented SP. -/
theorem test_call_sp : nextIs (step (start 10 [] [(10, 0x50), (11, 0x07)]))
    (fun t => t.sp == 255 && t.readMem 255 == 12 && t.pc == 255) = true := by decide
/-- V39. -/
theorem test_ret : nextIs (step (start 0 [(7, 255)] [(0, 0x11), (255, 0x08)]))
    (fun t => t.pc == 8 && t.sp == 0) = true := by decide
/-- V40: RET from an empty stack pops the program's own byte. -/
theorem test_ret_empty_stack : nextIs (step (start 0 [] [(0, 0x11)])) (fun t => t.pc == 17 && t.sp == 1) = true := by
  decide
/-- V42. -/
theorem test_hlt_wraps : nextIs (step (start 255 [] [(255, 0x01)]))
    (fun t => t.status == .halted && t.pc == 0) = true := by decide
/-- V43: the record of an unknown opcode; `pc` stays. -/
theorem test_unknown_opcode : nextIs (step (start 3 [] [(3, 0xFF)]))
    (fun t => t.status == .faulted && t.pc == 3 && t.faultCode == 1 &&
      t.fault == some { kind := .unknownOpcode, pc := 3, byte := 0xFF }) = true := by decide
/-- V29: a bad PUSH pushes nothing. -/
theorem test_push_bad_register : nextIs (step (start 0 [] [(0, 0x45), (1, 0x08)]))
    (fun t => t.sp == 0 && t.readMem 255 == 0 && t.faultCode == 2) = true := by decide
/-- V47: no step in Halted. -/
theorem test_no_step_when_halted :
    step { start 0 [] [(0, 0x01)] with status := .halted } = .fault (.notRunning .halted) := rfl
/-- The word LDI R0, 0 runs as the first instruction after reset. -/
theorem test_withFetchWord : nextIs (step (State.reset.withFetchWord 8 0x82))
    (fun t => t.pc == 3 && t.status == .running) = true := by decide

/-! ## The ALU, the host's transactions, the program text -/

/-- The ALU vectors of functions no opcode reaches (95_test_vectors.md, section 2.2). -/
theorem test_alu_sub_div : alu .sub 5 3 = .ok 2 ∧ alu .sub 3 5 = .ok 254 ∧ alu .div 7 2 = .ok 3 ∧
    alu .div 255 1 = .ok 255 ∧ alu .div 0 0 = .error .divideByZero := by decide
/-- V49, V52: the length reasons of a refused load. -/
theorem test_load_refusals : (transact (.load []) State.reset).1 = .loadRefused .emptyProgram ∧
    loadRefusal? .idle 257 = some .programTooLarge ∧ loadRefusal? .idle 256 = none := by decide
/-- V48, V50, V51: load then run, run from Idle, and a second load. -/
theorem test_load_then_run :
    (transact .run (transact (.load [0x01]) State.reset).2).2.status = .running ∧
    (transact .run State.reset).1 = .runRefused .notLoaded ∧
    (transact (.load [0x01]) (transact (.load [0x01]) State.reset).2).1 = .loadRefused .notIdle := by decide
/-- R72: the spelling and the three lines of LDI R0, 8. -/
theorem test_assembly : assemblyText (.ldi 0 8) = ['L', 'D', 'I', ' ', 'R', '0', ',', ' ', '8'] ∧
    assemblyText .ret = ['R', 'E', 'T'] ∧
    programLines (.ldi 0 8) = ["10000010".toList, "00000000".toList, "00001000".toList] := by decide

/-! ## Witnesses: for each statement with hypotheses, a state and operands that meet them together -/

/-- Register operand bytes at both sides of the bound 7 (LDI, PRN, ADD, MUL, PUSH, POP, CALL and their bad forms). -/
theorem witness_register_operands : ∃ good bad : Byte, good.toNat = 7 ∧ good.toNat < 8 ∧ 8 ≤ bad.toNat ∧ bad.toNat = 8 :=
  ⟨7, 8, by decide⟩
theorem witness_LdiWritesImmediate : ∃ (r1 q : Byte), r1.toNat < 8 ∧ q.toNat < 8 ∧ q.toNat ≠ r1.toNat ∧
    8 ≤ (8 : Byte).toNat := ⟨7, 0, by decide⟩
theorem witness_PrnEmitsRegister : ∃ r1 k : Byte, r1.toNat < 8 ∧ 8 ≤ k.toNat := ⟨7, 8, by decide⟩
theorem witness_AddStoresSumModulo256 : ∃ r1 r2 k : Byte, r1.toNat < 8 ∧ r2.toNat < 8 ∧ 8 ≤ k.toNat := ⟨7, 0, 8, by decide⟩
theorem witness_MulStoresProductModulo256 : ∃ r1 r2 k : Byte, r1.toNat < 8 ∧ r2.toNat < 8 ∧ 8 ≤ k.toNat :=
  ⟨0, 7, 255, by decide⟩
theorem witness_PushStoresBelowOldTop : ∃ r q : Byte, r.toNat < 8 ∧ r.toNat ≠ 7 ∧ q.toNat < 8 ∧ q.toNat = 7 :=
  ⟨6, 7, by decide⟩
theorem witness_PopLoadsTop : ∃ r q : Byte, r.toNat < 8 ∧ r.toNat ≠ 7 ∧ q.toNat < 8 ∧ q.toNat = 7 := ⟨6, 7, by decide⟩
theorem witness_CallPushesReturnAddress : ∃ r q : Byte, r.toNat < 8 ∧ r.toNat ≠ 7 ∧ q.toNat < 8 ∧ q.toNat = 7 :=
  ⟨0, 7, by decide⟩
theorem witness_StackFormsTrapOnBadRegister : ∃ k : Byte, 8 ≤ k.toNat := ⟨8, by decide⟩
theorem witness_PushThenPopCopies : ∃ ra rb : Byte, ra.toNat < 7 ∧ rb.toNat < 7 ∧ ra ≠ rb := ⟨6, 0, by decide⟩
/-- A state other than the CALL's own that has SP and the byte at SP as the CALL left them. -/
theorem witness_CallThenRetReturns : ∃ (s t u : State) (r1 : Byte), r1.toNat < 8 ∧ exec (.call r1) s = .next t ∧
    u ≠ t ∧ u.sp = t.sp ∧ u.readMem t.sp = t.readMem t.sp :=
  ⟨start 6 [(1, 11)] [], _, start 0 [(7, 255)] [(255, 8)], 1, by decide, rfl, by decide, by decide, by decide⟩
theorem witness_AluFunctions : ∃ B C : Byte, B.toNat ≠ 0 ∧ C.toNat = 0 := ⟨1, 0, by decide⟩
theorem witness_EveryRegisterIsWritable : ∃ q r : Reg, q ≠ r := ⟨0, 7, by decide⟩
theorem witness_CanonicalMemoriesThatReadAlikeAreEqual : ∃ m n : Memory, m.wf ∧ n.wf ∧ m ≠ [] ∧
    ∀ a, a < 256 → m.read a = n.read a :=
  ⟨[(0, 1), (255, 2)], [(0, 1), (255, 2)], by decide, by decide, by decide, fun _ _ => rfl⟩
theorem witness_DecodeOfEncodeIsIdentity : ∃ i : Instr, i.wellFormed = true := ⟨.add 7 0, by decide⟩
theorem witness_EncodeOfDecodeIsIdentity : ∃ (op op1 op2 : Byte) (i : Instr), decode op op1 op2 = .ok i :=
  ⟨0xA2, 7, 0, .mul 7 0, by decide⟩
theorem witness_DecoderRefusesExactly :
    (0xA1 : Byte) ∉ nineOpcodes ∧
    (∃ op op1 : Byte, op ∈ nineOpcodes ∧ op ∉ ([0x01, 0x11] : List Byte) ∧ 8 ≤ op1.toNat) ∧
    (∃ op op1 op2 : Byte, op ∈ ([0xA0, 0xA2] : List Byte) ∧ op1.toNat < 8 ∧ 8 ≤ op2.toNat) ∧
    (∃ op op1 op2 : Byte, op ∈ nineOpcodes ∧ (op ∉ ([0x01, 0x11] : List Byte) → op1.toNat < 8) ∧
      (op ∈ ([0xA0, 0xA2] : List Byte) → op2.toNat < 8)) :=
  ⟨by decide, ⟨0x82, 8, by decide⟩, ⟨0xA0, 7, 8, by decide⟩, ⟨0xA2, 7, 7, by decide⟩⟩
theorem witness_StepRunsDecodedInstruction : ∃ (s : State) (i : Instr), s.status = .running ∧
    decode (s.readMem s.pc) (s.readMem (s.pc + 1)) (s.readMem (s.pc + 2)) = .ok i :=
  ⟨start 254 [] [(254, 0x82), (0, 9)], .ldi 0 9, rfl, by decide⟩
theorem witness_UnknownOpcodeFaults : ∃ s : State, s.status = .running ∧ s.readMem s.pc ∉ nineOpcodes :=
  ⟨start 3 [] [(3, 0xFF)], rfl, by decide⟩
theorem witness_InvalidRegisterFaults_op1 : ∃ s : State, s.status = .running ∧
    s.readMem s.pc ∈ ([0x82, 0x47, 0xA0, 0xA2, 0x45, 0x46, 0x50] : List Byte) ∧ 8 ≤ (s.readMem (s.pc + 1)).toNat :=
  ⟨start 0 [] [(0, 0x50), (1, 8)], rfl, by decide, by decide⟩
theorem witness_InvalidRegisterFaults_op2 : ∃ s : State, s.status = .running ∧
    s.readMem s.pc ∈ ([0xA0, 0xA2] : List Byte) ∧ (s.readMem (s.pc + 1)).toNat < 8 ∧ 8 ≤ (s.readMem (s.pc + 2)).toNat :=
  ⟨start 0 [] [(0, 0xA0), (1, 7), (2, 8)], rfl, by decide, by decide, by decide⟩
theorem witness_FaultsArePrecise : ∃ s t : State, step s = .next t ∧ t.status = .faulted :=
  ⟨start 3 [] [(3, 0xFF)], _, rfl, rfl⟩
/-- A step of PRN and one of PUSH: both sides of the store statement, and steps for the other whole-machine rules. -/
theorem witness_StepStoresOnlyAtNewTop : (∃ s t : State, step s = .next t ∧ s.readMem s.pc ∉ ([0x45, 0x50] : List Byte)) ∧
    ∃ s t : State, step s = .next t ∧ s.readMem s.pc = 0x45 :=
  ⟨⟨start 0 [] [(0, 0x47)], _, rfl, by decide⟩, ⟨start 0 [] [(0, 0x45)], _, rfl, by decide⟩⟩
theorem witness_StepWritesOnlyNamedRegisters : (∃ (s t : State) (q : Reg), step s = .next t ∧ t.reg q ≠ s.reg q ∧ q = 7) ∧
    ∃ (s t : State) (q : Reg), step s = .next t ∧ t.reg q ≠ s.reg q ∧ q = 6 :=
  ⟨⟨start 0 [] [(0, 0x45)], _, 7, rfl, by decide, rfl⟩,
   ⟨start 0 [] [(0, 0x82), (1, 6), (2, 1)], _, 6, rfl, by decide, rfl⟩⟩
theorem witness_StepAdvancesPc : ∃ s t : State, step s = .next t ∧ t.status ≠ .faulted ∧
    s.readMem s.pc ∉ ([0x50, 0x11] : List Byte) := ⟨start 255 [] [(255, 0x01)], _, rfl, by decide, by decide⟩
theorem witness_OutputIsAppendOnlyByPrn : ∃ s t : State, step s = .next t ∧ t.out ≠ s.out :=
  ⟨start 0 [] [(0, 0x47), (1, 7)], _, rfl, by decide⟩
theorem witness_StatusAfterStep : ∃ s t : State, step s = .next t ∧ t.status = .halted :=
  ⟨start 0 [] [(0, 0x01)], _, rfl, rfl⟩
/-- SP one above the instruction after the PUSH. -/
theorem witness_PushedByteIsFetchedNext : ∃ (s : State) (r1 : Byte), r1.toNat < 7 ∧ s.sp - 1 = s.pc + 2 :=
  ⟨start 0 [(7, 3)] [(0, 0x45)], 6, by decide, by decide⟩
theorem witness_StepDoesNotReadOutput : ∃ s t : State, step s = .next t :=
  ⟨start 0 [(0, 8)] [(0, 0x47)], _, rfl⟩
/-- Two memories that differ at 100 alone, and a POP. -/
theorem witness_StepReadsOnlyFetchedBytesAndTop : ∃ (s t : State) (m : Memory), step s = .next t ∧ m ≠ s.mem ∧
    ∀ a : Byte, a ∈ [s.pc, s.pc + 1, s.pc + 2, s.sp] → m.read a.toNat = s.readMem a :=
  ⟨start 0 [(7, 240)] [(0, 0x46)], _, [(0, 0x46), (100, 1)], rfl, by decide, by decide⟩
/-- A running state that meets the invariant and takes a step. -/
theorem witness_StepKeepsInvariant : ∃ s t : State, s.Inv ∧ step s = .next t :=
  ⟨start 0 [] [(0, 0x45)], _,
    { memWf := by decide, faultRecord := by decide, faultPc := by rintro r ⟨⟩, faultKind := by rintro r ⟨⟩,
      atEntry := by rintro ⟨⟩, memIdle := by rintro ⟨⟩ }, rfl⟩
theorem witness_HostTransactionKeepsInvariant : ∃ s : State, s.Inv ∧ s.status = .loaded :=
  ⟨{ State.reset with status := .loaded, mem := [(0, 1)] },
    { memWf := by decide, faultRecord := by decide, faultPc := by rintro r ⟨⟩, faultKind := by rintro r ⟨⟩,
      atEntry := fun _ => ⟨rfl, rfl, rfl⟩, memIdle := by rintro ⟨⟩ }, rfl⟩
theorem witness_StatusMovesOnlyAlongTheTable : ∃ s t : State, SysStep s t ∧ s.status = .running ∧ t.status = .halted :=
  ⟨start 0 [] [(0, 0x01)], _, .core rfl, rfl, rfl⟩
/-- Reset, then a load, then an accepted run. -/
theorem witness_EveryRunStartsAtEntry : ∃ s t : State, Reachable s ∧ s.startRun = .ok t :=
  ⟨_, _, .step .reset (.host (.load [0x01]) State.reset), rfl⟩
theorem witness_RunOutcomeIsUnique : ∃ (s t u : State) (o p : RunOutcome), RunEnds s o t ∧ RunEnds s p u :=
  ⟨start 0 [] [(0, 0x01)], _, _, .halted, .halted, ⟨1, rfl, rfl⟩, ⟨2, rfl, rfl⟩⟩
theorem witness_RunEndsOrHangs : ∃ s : State, s.status = .running := ⟨start 0 [] [(0, 0x01)], rfl⟩
theorem witness_HostRunReturnsTheOutcome :
    (∃ (n : Nat) (s t : State) (o : RunOutcome), hostRun n s = (.returned o, t)) ∧ State.reset.status ≠ .loaded :=
  ⟨⟨1, { start 0 [] [(0, 0x01)] with status := .loaded }, _, .halted, rfl⟩, by decide⟩
/-- Loads of the least and the greatest length, from Idle. -/
theorem witness_LoadPlacesProgram : ∃ (s : State) (b c : List Byte), s.Inv ∧ s.status = .idle ∧
    1 ≤ b.length ∧ b.length ≤ 256 ∧ b.length = 1 ∧ 1 ≤ c.length ∧ c.length ≤ 256 ∧ c.length = 256 ∧
    (∃ i, i < b.length) ∧ (∃ a : Byte, b.length ≤ a.toNat) :=
  ⟨{ State.reset with fault := none },  [0x01], List.replicate 256 0x01,
    { memWf := by decide, faultRecord := by decide, faultPc := by rintro r ⟨⟩, faultKind := by rintro r ⟨⟩,
      atEntry := fun _ => ⟨rfl, rfl, rfl⟩, memIdle := fun _ => rfl },
    rfl, by decide, by decide, rfl, by rw [List.length_replicate]; decide, by rw [List.length_replicate],
    List.length_replicate, ⟨0, by decide⟩, ⟨255, by decide⟩⟩
theorem witness_LoadRefusals : (∃ s : State, s.status = .idle) ∧ (∃ s : State, s.status ≠ .idle) ∧
    (∃ b : List Byte, b = []) ∧ (∃ b : List Byte, 256 < b.length) ∧ (∃ b : List Byte, 1 ≤ b.length ∧ b.length ≤ 256) :=
  ⟨⟨State.reset, rfl⟩, ⟨start 0 [] [], by decide⟩, ⟨[], rfl⟩, ⟨List.replicate 257 0, by rw [List.length_replicate]; decide⟩,
   ⟨List.replicate 256 0, by rw [List.length_replicate]; decide⟩⟩
theorem witness_RunTransaction : ∀ st : Status, ∃ s : State, s.status = st := fun st => ⟨{ State.reset with status := st }, rfl⟩
theorem witness_StatusAndFaultCodes : ∃ s : State, s.fault = none := ⟨State.reset, rfl⟩
theorem witness_WithFetchWordRunsTheWord : ∃ (nbits w : Nat) (i : Instr), decodeTableWord nbits w = some i :=
  ⟨8, 0x82, .ldi 0 0, by decide⟩

end Sys2Proof.Tests
end

section
namespace Sys2Proof.Proofs
open Sys2Proof.Machine State

/-- Settles O14: reads after a write are `reg_setReg`, and SP is register 7 because `setSp` is the write to it. -/
theorem everyRegisterIsWritable : Obligations.EveryRegisterIsWritable := by
  intro s r v
  refine ⟨?written, fun q hq => ?other, ?sp, ?frame⟩
  case written => rw [reg_setReg, if_pos rfl]
  case other => rw [reg_setReg, if_neg hq]
  case sp => exact sp_setSp s v
  case frame => rfl

end Sys2Proof.Proofs
end

section
namespace Sys2Proof.Proofs
open Sys2Proof.Machine State

/-- Settles O15: reads after the write are `readMem_writeMem`, at the written address and away from it. -/
theorem memWriteSetsOneByte : Obligations.MemWriteSetsOneByte := by
  intro s a v
  refine ⟨?written, fun b hb => ?other, ?frame⟩
  case written => rw [readMem_writeMem, if_pos rfl]
  case other => rw [readMem_writeMem, if_neg hb]
  case frame => rfl

end Sys2Proof.Proofs
end

section
namespace Sys2Proof.Proofs
open Sys2Proof.Machine State

/-- An opcode byte outside the nine is refused before any operand byte is checked (R61, R69). -/
theorem decode_of_notMem_nineOpcodes {op : Byte} (h : op ∉ nineOpcodes) (op1 op2 : Byte) :
    decode op op1 op2 = .error (.unknownOpcode op) := by
  unfold decode
  rw [ofByte?_eq_none_iff.2 h]

/-- While Running, what the decoder refuses is raised (R53). -/
theorem step_of_fetchDecode_error {s : State} {e : DecodeError} (hs : s.status = .running)
    (he : s.fetchDecode = .error e) : step s = .next (s.raiseDecode e) := by
  simp only [step, hs, he]

/-- In any status other than Running, no step takes place (R53). -/
theorem step_ne_next_of_not_running {s : State} (h : s.status ≠ .running) (u : State) : step s ≠ .next u :=
  fun hu => h (step_cases hu).1

/-- Settles O25: the decoder refuses the byte, the step raises that refusal, and the raised state is Faulted, from which
no step follows. -/
theorem unknownOpcodeFaults : Obligations.UnknownOpcodeFaults := by
  intro s hs hop
  refine ⟨?raised, step_ne_next_of_not_running ?terminal⟩
  case raised =>
    have hd : s.fetchDecode = .error (.unknownOpcode (s.readMem s.pc)) := decode_of_notMem_nineOpcodes hop _ _
    exact step_of_fetchDecode_error hs hd
  case terminal => exact Status.noConfusion

end Sys2Proof.Proofs
end

section
namespace Sys2Proof.Proofs
open Sys2Proof.Machine State

/-- Settles O19: each of the three properties is read off the nine patterns of R62, one row at a time. -/
theorem opcodeBitsMatchOperandCount : Obligations.OpcodeBitsMatchOperandCount := by
  intro o
  refine ⟨?operandCount, ?aluBit, ?pcBit⟩
  case operandCount => cases o <;> rfl
  case aluBit => cases o <;> decide
  case pcBit => cases o <;> decide

end Sys2Proof.Proofs
end

section
namespace Sys2Proof.Proofs
open Sys2Proof.Machine State

/-- Settles O1: on a good register LDI is one `setReg` and one `advance`, so only the register reads need an argument; a
bad register is the first one that `exec_of_bad_register` finds. -/
theorem ldiWritesImmediate : Obligations.LdiWritesImmediate := by
  intro s r1 imm
  refine ⟨?encoding, fun h => ⟨_, exec_ldi_of_lt s h imm, ?written, ?pc, fun q hq => ?other, ?mem, ?out, ?runState⟩,
    fun h => ?bad⟩
  case encoding => rfl
  case written => rw [reg_advance, reg_setReg, if_pos rfl]
  case pc => exact advance_pc _ _
  case other =>
    have hne : q ≠ ⟨r1.toNat, h⟩ := fun hr => hq (congrArg Fin.val hr)
    rw [reg_advance, reg_setReg, if_neg hne]
  case mem => exact fun a => by rw [readMem_advance, readMem_setReg]
  case out => rw [advance_out, setReg_out]
  case runState => exact ⟨by rw [advance_status, setReg_status], by rw [advance_fault, setReg_fault]⟩
  case bad => exact exec_of_bad_register _ r1 s (List.find?_cons_of_pos (decide_eq_true h))

end Sys2Proof.Proofs
end

section
namespace Sys2Proof.Proofs
open Sys2Proof.Machine State

/-- Settles O2: on a good register PRN is one `emit` and one `advance`, which touch `out` and `pc` alone; a bad register
is the first one that `exec_of_bad_register` finds. -/
theorem prnEmitsRegister : Obligations.PrnEmitsRegister := by
  intro s r1
  refine ⟨?encoding, fun h => ⟨_, exec_prn_of_lt s h, ?emitted, ?pc, fun q => ?regs, ?mem, ?runState⟩, fun h => ?bad⟩
  case encoding => rfl
  case emitted => rw [advance_out, emit_out]
  case pc => exact advance_pc _ _
  case regs => rw [reg_advance, reg_emit]
  case mem => exact fun a => by rw [readMem_advance, readMem_emit]
  case runState => exact ⟨by rw [advance_status, emit_status], by rw [advance_fault, emit_fault]⟩
  case bad => exact exec_of_bad_register _ r1 s (List.find?_cons_of_pos (decide_eq_true h))

end Sys2Proof.Proofs
end

section
namespace Sys2Proof.Proofs
open Sys2Proof.Machine State

/-- ADD is the ALU instruction with the function `add` (R81). -/
theorem exec_add_eq_aluInstr (r1 r2 : Byte) (s : State) : exec (.add r1 r2) s = aluInstr .add r1 r2 s := rfl

/-- MUL is the ALU instruction with the function `mul` (R82). -/
theorem exec_mul_eq_aluInstr (r1 r2 : Byte) (s : State) : exec (.mul r1 r2) s = aluInstr .mul r1 r2 s := rfl

/-- The ALU's ADD answers a byte, which is the sum modulo 256 (R76). -/
theorem alu_add_toNat (A B : Byte) : ∃ v, alu .add A B = .ok v ∧ v.toNat = (A.toNat + B.toNat) % 256 :=
  ⟨_, rfl, by rw [← Nat.cast_add, wrap8_toNat]⟩

/-- The ALU's MUL answers a byte, which is the product modulo 256 (R78). -/
theorem alu_mul_toNat (A B : Byte) : ∃ v, alu .mul A B = .ok v ∧ v.toNat = (A.toNat * B.toNat) % 256 :=
  ⟨_, rfl, by rw [← Nat.cast_mul, wrap8_toNat]⟩

/-- A bad `r1` is raised whatever `r2` is (R69). -/
theorem aluInstr_of_bad_first {r1 : Byte} (h1 : 8 ≤ r1.toNat) (f : AluFn) (r2 : Byte) (s : State) :
    aluInstr f r1 r2 s = .next (s.raise .invalidRegister r1) :=
  withRegister_of_ge h1 s _

/-- A bad `r2` is raised once `r1` is good (R69). -/
theorem aluInstr_of_bad_second {r1 r2 : Byte} (h1 : r1.toNat < 8) (h2 : 8 ≤ r2.toNat) (f : AluFn) (s : State) :
    aluInstr f r1 r2 s = .next (s.raise .invalidRegister r2) :=
  (withRegister_of_lt h1 s _).trans (withRegister_of_ge h2 s _)

/-- An ALU instruction on two good operands, for a function that answers `op` modulo 256 on all bytes: `r1` takes `op` of
the two old values, `pc` moves past three bytes, and all else stays. `r1 = r2` and `r1 = 7` are no special cases: both
values are read from `s`, and the one `setReg` is the only register write. -/
theorem aluInstr_of_good {f : AluFn} {op : Nat → Nat → Nat} {r1 r2 : Byte} (s : State)
    (hf : ∀ A B : Byte, ∃ v, alu f A B = .ok v ∧ v.toNat = op A.toNat B.toNat % 256)
    (h1 : r1.toNat < 8) (h2 : r2.toNat < 8) :
    ∃ t, aluInstr f r1 r2 s = .next t ∧
      (t.reg ⟨r1.toNat, h1⟩).toNat = op (s.reg ⟨r1.toNat, h1⟩).toNat (s.reg ⟨r2.toNat, h2⟩).toNat % 256 ∧
      t.pc = s.pc + 3 ∧ (∀ q : Reg, q.val ≠ r1.toNat → t.reg q = s.reg q) ∧
      KeepsMemory s t ∧ t.out = s.out ∧ KeepsRunState s t := by
  obtain ⟨v, hok, hv⟩ := hf (s.reg ⟨r1.toNat, h1⟩) (s.reg ⟨r2.toNat, h2⟩)
  refine ⟨_, aluInstr_of_ok h1 h2 hok, ?result, ?pc, fun q hq => ?other, ?mem, ?out, ?runState⟩
  case result => rw [reg_advance, reg_setReg, if_pos rfl, hv]
  case pc => exact advance_pc _ _
  case other =>
    have hne : q ≠ ⟨r1.toNat, h1⟩ := fun hr => hq (congrArg Fin.val hr)
    rw [reg_advance, reg_setReg, if_neg hne]
  case mem => exact fun a => by rw [readMem_advance, readMem_setReg]
  case out => rw [advance_out, setReg_out]
  case runState => exact ⟨by rw [advance_status, setReg_status], by rw [advance_fault, setReg_fault]⟩

/-- Settles O3: ADD is the ALU instruction of the sum modulo 256, so its good form is `aluInstr_of_good`, and its bad
forms are those of every ALU instruction. -/
theorem addStoresSumModulo256 : Obligations.AddStoresSumModulo256 := by
  intro s r1 r2
  rw [exec_add_eq_aluInstr]
  refine ⟨?encoding, fun h1 h2 => ?good, fun h1 => ?badFirst, fun h1 h2 => ?badSecond⟩
  case encoding => rfl
  case good => exact aluInstr_of_good s alu_add_toNat h1 h2
  case badFirst => exact aluInstr_of_bad_first h1 .add r2 s
  case badSecond => exact aluInstr_of_bad_second h1 h2 .add s

/-- Settles O4: MUL is the ALU instruction of the product modulo 256, so its good form is `aluInstr_of_good`, and its bad
forms are those of every ALU instruction. -/
theorem mulStoresProductModulo256 : Obligations.MulStoresProductModulo256 := by
  intro s r1 r2
  rw [exec_mul_eq_aluInstr]
  refine ⟨?encoding, fun h1 h2 => ?good, fun h1 => ?badFirst, fun h1 h2 => ?badSecond⟩
  case encoding => rfl
  case good => exact aluInstr_of_good s alu_mul_toNat h1 h2
  case badFirst => exact aluInstr_of_bad_first h1 .mul r2 s
  case badSecond => exact aluInstr_of_bad_second h1 h2 .mul s

end Sys2Proof.Proofs
end

section
namespace Sys2Proof.Proofs
open Sys2Proof.Machine State

/-- The fault code of a state with a record is the code of the record's kind (R90, R91). -/
theorem faultCode_of_fault_eq_some {s : State} {r : FaultRecord} (h : s.fault = some r) : s.faultCode = r.kind.code := by
  simp only [faultCode, h, FaultRecord.code]

/-- Settles O17: the two items written are `raise`'s definition, the code is that of the record it writes, and no step
follows because the raised status, Faulted, is not Running. -/
theorem takingFaultWritesStatusAndRecordOnly : Obligations.TakingFaultWritesStatusAndRecordOnly := by
  intro s k b
  refine ⟨?written, ?code, step_ne_next_of_not_running ?terminal⟩
  case written => rfl
  case code => exact faultCode_of_fault_eq_some (raise_fault s k b)
  case terminal =>
    rw [raise_status]
    exact Status.noConfusion

end Sys2Proof.Proofs
end

section
namespace Sys2Proof.Proofs
open Sys2Proof.Machine State

/-- One address on from `a`, every other address is one offset nearer (R43). -/
theorem toNat_sub_eq_succ_of_ne {a c : Byte} (h : c ≠ a) : (c - a).toNat = (c - (a + 1)).toNat + 1 := by
  bv_omega

/-- What an address reads after up to 256 bytes are placed from `a`: the byte at its offset from `a`, or its old byte
where the list is too short to reach it. With at most 256 bytes the wrap never overwrites a byte just placed (R43, R48). -/
theorem readMem_placeBytes (s : State) (a c : Byte) {bs : List Byte} (h : bs.length ≤ 256) :
    (s.placeBytes a bs).readMem c = bs[(c - a).toNat]?.getD (s.readMem c) := by
  induction bs generalizing s a with
  | nil => rfl
  | cons b bs ih =>
    rw [List.length_cons] at h
    rw [placeBytes, ih _ _ (by omega), readMem_writeMem]
    by_cases hc : c = a
    · subst hc
      have hout : bs.length ≤ (c - (c + 1)).toNat := by bv_omega
      rw [if_pos rfl, BitVec.sub_self, List.getElem?_eq_none hout]
      rfl
    · rw [if_neg hc, toNat_sub_eq_succ_of_ne hc, List.getElem?_cons_succ]

/-- A load is accepted in the status Idle with 1 to 256 bytes (R114); `load_ok` is the other direction. -/
theorem load_of_idle {s : State} {b : List Byte} (hs : s.status = .idle) (h1 : 1 ≤ b.length) (h2 : b.length ≤ 256) :
    s.load b = .ok { s.placeBytes 0 b with status := .loaded } := by
  have hlen : loadLengthRefusal? b.length = none := by
    rw [loadLengthRefusal?, if_neg (by omega), if_neg (not_lt.2 h2)]
  have hacc : loadRefusal? s.status b.length = none := by rw [loadRefusal?, if_pos hs, hlen]
  rw [load, hacc]

/-- An accepted load answers that it is done, with the loaded state. -/
theorem transact_load_of_ok {s t : State} {b : List Byte} (h : s.load b = .ok t) :
    transact (.load b) s = (.done, t) := by
  rw [transact, h]

/-- Where memory stands at its reset contents, every address reads as `MEM_INIT` (R109). -/
theorem readMem_of_mem_eq_reset {s : State} (h : s.mem = State.reset.mem) (a : Byte) : s.readMem a = Config.memInit := by
  rw [readMem, h]
  rfl

/-- Settles O45: the load is accepted and is one `placeBytes` from 0, so an address is its own offset; past the program an
address reads as before, which the invariant makes the reset value. -/
theorem loadPlacesProgram : Obligations.LoadPlacesProgram := by
  intro s b hinv hidle h1 h256
  have hread (a : Byte) : (s.placeBytes 0 b).readMem a = b[a.toNat]?.getD Config.memInit := by
    rw [readMem_placeBytes s 0 a h256, sub_zero, readMem_of_mem_eq_reset (hinv.memIdle hidle)]
  refine ⟨_, transact_load_of_ok (load_of_idle hidle h1 h256), rfl, fun i hi => ?placed, fun a ha => ?kept, ?regs, ?pc,
    ?out, ?fault⟩
  case placed =>
    have haddr : (BitVec.ofNat 8 i).toNat = i := (BitVec.toNat_ofNat i 8).trans (Nat.mod_eq_of_lt (by omega))
    refine (hread _).trans ?_
    rw [haddr, List.getElem?_eq_getElem hi, Option.getD_some]
  case kept =>
    refine (hread a).trans ?_
    rw [List.getElem?_eq_none ha, Option.getD_none]
  case regs => exact placeBytes_x s b 0
  case pc => exact placeBytes_pc s b 0
  case out => exact placeBytes_out s b 0
  case fault => exact placeBytes_fault s b 0

end Sys2Proof.Proofs
end

section
namespace Sys2Proof.Proofs
open Sys2Proof.Machine State

/-- Well-formed means what the decoder checks, for every instruction: its constructors' laws together (R60, R69). -/
theorem wellFormed_iff (i : Instr) : Laws.RegisterCheck.Statement i := by
  cases i with
  | ldi r1 imm => exact Laws.RegisterCheck.ldi r1 imm
  | prn r1 => exact Laws.RegisterCheck.prn r1
  | hlt => exact Laws.RegisterCheck.hlt
  | add r1 r2 => exact Laws.RegisterCheck.add r1 r2
  | mul r1 r2 => exact Laws.RegisterCheck.mul r1 r2
  | push r1 => exact Laws.RegisterCheck.push r1
  | pop r1 => exact Laws.RegisterCheck.pop r1
  | call r1 => exact Laws.RegisterCheck.call r1
  | ret => exact Laws.RegisterCheck.ret

/-- The decoder checks the same register operands whatever bytes follow an encoding (R66). -/
theorem registerOperands_encode_append (i : Instr) (tail : List Byte) :
    i.opcode.registerOperands ((encode i ++ tail).getD 1 0) ((encode i ++ tail).getD 2 0) =
      i.opcode.registerOperands (i.operands.getD 0 0) (i.operands.getD 1 0) := by
  cases i <;> rfl

/-- The decoder builds the instruction from its encoding whatever bytes follow it: no byte beyond the operand count is
looked at (R66). -/
theorem build_encode_append (i : Instr) (tail : List Byte) :
    i.opcode.build ((encode i ++ tail).getD 1 0) ((encode i ++ tail).getD 2 0) = i := by
  cases i <;> rfl

/-- Settles O20: the first byte is the instruction's own opcode pattern, its register operands pass the check because the
instruction is well-formed, and the bytes after the encoding reach neither the check nor the instruction built. -/
theorem decodeOfEncodeIsIdentity : Obligations.DecodeOfEncodeIsIdentity := by
  intro i hi tail
  have hregs : ∀ k ∈ i.opcode.registerOperands ((encode i ++ tail).getD 1 0) ((encode i ++ tail).getD 2 0),
      k.toNat < 8 := by
    rw [registerOperands_encode_append]
    exact (wellFormed_iff i).1 hi
  exact (decode_byte hregs).trans (congrArg Except.ok (build_encode_append i tail))

end Sys2Proof.Proofs
end

section
namespace Sys2Proof.Proofs
open Sys2Proof.Machine State

/-- A fault of one of the two kinds that this hardware raises keeps the invariant: the record names
the state's own `pc`, and no other item changes (R91, R94, R97). -/
theorem inv_raise {s : State} {k : FaultKind} (hinv : s.Inv) (hk : k = .unknownOpcode ∨ k = .invalidRegister) (b : Byte) :
    (s.raise k b).Inv where
  memWf := hinv.memWf
  faultRecord := iff_of_true rfl rfl
  faultPc := by rintro r ⟨⟩; rfl
  faultKind := by rintro r ⟨⟩; exact hk
  atEntry := by rintro ⟨⟩
  memIdle := by rintro ⟨⟩

/-- A running or halted state with canonical memory and no record has the invariant: what the invariant asks of the other
three statuses is not asked of it. -/
theorem inv_of_running_or_halted {s : State} (hmem : s.mem.wf) (hfault : s.fault = none)
    (hs : s.status = .running ∨ s.status = .halted) : s.Inv where
  memWf := hmem
  faultRecord := by rcases hs with hs | hs <;> simp [hs, hfault]
  faultPc := by simp [hfault]
  faultKind := by simp [hfault]
  atEntry := by rcases hs with hs | hs <;> simp [hs, Status.preRun]
  memIdle := by rcases hs with hs | hs <;> simp [hs]

/-- There is a fault record in no status but Faulted (R26). -/
theorem fault_eq_none_of_inv {s : State} (hinv : s.Inv) (hs : s.status ≠ .faulted) : s.fault = none := by
  rw [← Option.not_isSome_iff_eq_none, hinv.faultRecord]
  exact hs

/-- After an opcode's effect on a running state, the status is Running or Halted (R25). -/
theorem status_of_effect {s t : State} {o : Opcode} {op1 op2 : Byte} (hs : s.status = .running)
    (h : Effect s t op1 op2 o) : t.status = .running ∨ t.status = .halted := by
  rw [h.runState.2, hs]
  split
  · exact .inr rfl
  · exact .inl rfl

/-- Settles O37: a step is one of the two faults, or an opcode's effect, which keeps memory canonical and the record none
and leaves the status Running or Halted. -/
theorem stepKeepsInvariant : Obligations.StepKeepsInvariant := by
  intro s t hinv h
  obtain ⟨hs, ⟨_, rfl⟩ | ⟨_, k, _, _, _, rfl⟩ | ⟨o, _, _, heff⟩⟩ := step_inv h
  · exact inv_raise hinv (.inl rfl) _
  · exact inv_raise hinv (.inr rfl) k
  · have hnone : s.fault = none := fault_eq_none_of_inv hinv (by rw [hs]; exact Status.noConfusion)
    exact inv_of_running_or_halted (heff.memWf hinv.memWf) (heff.runState.1.trans hnone) (status_of_effect hs heff)

end Sys2Proof.Proofs
end

section
namespace Sys2Proof.Proofs
open Sys2Proof.Machine State

/-- The instruction an opcode builds has that opcode. -/
theorem opcode_build (o : Opcode) (op1 op2 : Byte) : (o.build op1 op2).opcode = o := by
  cases o <;> rfl

/-- The instruction an opcode builds has the register operands that the opcode names among the two bytes. -/
theorem registerOperands_build (o : Opcode) (op1 op2 : Byte) :
    o.registerOperands ((o.build op1 op2).operands.getD 0 0) ((o.build op1 op2).operands.getD 1 0) =
      o.registerOperands op1 op2 := by
  cases o <;> rfl

/-- The instruction an opcode builds holds the bytes it was built from, as far as its operand count reaches (R55, R66). -/
theorem encode_build_append_drop (o : Opcode) (op1 op2 : Byte) :
    encode (o.build op1 op2) ++ [op1, op2].drop o.operandCount = [o.byte, op1, op2] := by
  cases o <;> rfl

/-- An instruction built from good register operands is well-formed. -/
theorem wellFormed_build {o : Opcode} {op1 op2 : Byte} (h : ∀ k ∈ o.registerOperands op1 op2, k.toNat < 8) :
    (o.build op1 op2).wellFormed = true := by
  apply (wellFormed_iff _).2
  rw [opcode_build, registerOperands_build]
  exact h

/-- What decodes was built by the row of its opcode byte from good register operands: `decode_cases` without the
refusals. -/
theorem decode_eq_ok {op op1 op2 : Byte} {i : Instr} (h : decode op op1 op2 = .ok i) :
    ∃ o : Opcode, o.byte = op ∧ (∀ k ∈ o.registerOperands op1 op2, k.toNat < 8) ∧ i = o.build op1 op2 := by
  obtain ⟨_, hd⟩ | ⟨_, _, _, _, hd⟩ | ⟨o, ho, hk, hd⟩ := decode_cases op op1 op2
  · rw [hd] at h; cases h
  · rw [hd] at h; cases h
  · rw [hd] at h
    cases h
    exact ⟨o, Opcode.byte_of_ofByte? ho, hk, rfl⟩

/-- Settles O21: what decodes was built by a row of the table, so it is well-formed, and the bytes left over are those
beyond the row's operand count. -/
theorem encodeOfDecodeIsIdentity : Obligations.EncodeOfDecodeIsIdentity := by
  intro op op1 op2 i h
  obtain ⟨o, rfl, hregs, rfl⟩ := decode_eq_ok h
  exact ⟨wellFormed_build hregs, _, encode_build_append_drop o op1 op2⟩

end Sys2Proof.Proofs
end

section
namespace Sys2Proof.Proofs
open Sys2Proof.Machine State

/-- Each of the nine bytes is the pattern of a row (R62). -/
theorem exists_byte_of_mem_nineOpcodes {b : Byte} (h : b ∈ nineOpcodes) : ∃ o : Opcode, o.byte = b := by
  cases ho : Opcode.ofByte? b with
  | none => exact absurd h (ofByte?_eq_none_iff.1 ho)
  | some o => exact ⟨o, Opcode.byte_of_ofByte? ho⟩

/-- Each row's pattern is one of the nine bytes (R62). -/
theorem byte_mem_nineOpcodes (o : Opcode) : o.byte ∈ nineOpcodes := by
  cases o <;> decide

/-- `op1` is a register operand of every row but HLT and RET, and it is checked first (R58, R69). -/
theorem registerOperands_eq_cons {o : Opcode} (h : o.byte ∉ ([0x01, 0x11] : List Byte)) (op1 op2 : Byte) :
    ∃ ks, o.registerOperands op1 op2 = op1 :: ks := by
  cases o
  case hlt => exact absurd (by decide) h
  case ret => exact absurd (by decide) h
  all_goals exact ⟨_, rfl⟩

/-- ADD and MUL have two register operands (R58). -/
theorem registerOperands_eq_pair {o : Opcode} (h : o.byte ∈ ([0xA0, 0xA2] : List Byte)) (op1 op2 : Byte) :
    o.registerOperands op1 op2 = [op1, op2] := by
  cases o
  case add => rfl
  case mul => rfl
  all_goals exact absurd h (by decide)

/-- A register operand is `op1`, of a row other than HLT and RET, or `op2` of ADD or MUL (R58). -/
theorem mem_registerOperands {o : Opcode} {op1 op2 k : Byte} (h : k ∈ o.registerOperands op1 op2) :
    (o.byte ∉ ([0x01, 0x11] : List Byte) ∧ k = op1) ∨ (o.byte ∈ ([0xA0, 0xA2] : List Byte) ∧ k = op2) := by
  cases o <;> simp only [Opcode.registerOperands, List.mem_cons, List.not_mem_nil, or_false] at h
  case add => exact h.imp (⟨by decide, ·⟩) (⟨by decide, ·⟩)
  case mul => exact h.imp (⟨by decide, ·⟩) (⟨by decide, ·⟩)
  all_goals exact .inl ⟨by decide, h⟩

/-- The first bad register operand is the one the decoder refuses (R60, R69). -/
theorem decode_of_bad_register {o : Opcode} {op1 op2 k : Byte}
    (h : (o.registerOperands op1 op2).find? (fun k => 7 < k.toNat) = some k) :
    decode o.byte op1 op2 = .error (.invalidRegister k) := by
  simp only [decode, Opcode.ofByte?_byte, h]

/-- A bad `op1` is refused, whatever `op2` is (R69). -/
theorem decode_of_bad_first {o : Opcode} {op1 : Byte} (ho : o.byte ∉ ([0x01, 0x11] : List Byte)) (h : 8 ≤ op1.toNat)
    (op2 : Byte) : decode o.byte op1 op2 = .error (.invalidRegister op1) := by
  obtain ⟨ks, hks⟩ := registerOperands_eq_cons ho op1 op2
  apply decode_of_bad_register
  rw [hks]
  exact List.find?_cons_of_pos (decide_eq_true h)

/-- A bad `op2` of ADD or MUL is refused once `op1` is good (R69). -/
theorem decode_of_bad_second {o : Opcode} {op1 op2 : Byte} (ho : o.byte ∈ ([0xA0, 0xA2] : List Byte))
    (h1 : op1.toNat < 8) (h2 : 8 ≤ op2.toNat) : decode o.byte op1 op2 = .error (.invalidRegister op2) := by
  apply decode_of_bad_register
  rw [registerOperands_eq_pair ho, List.find?_cons_of_neg]
  · exact List.find?_cons_of_pos (decide_eq_true h2)
  · rw [decide_eq_true_eq]
    omega

/-- Settles O22: outside the nine the byte itself is refused; a byte of the nine is the pattern of a row, whose register
operands are `op1` and `op2` as the clauses name them. -/
theorem decoderRefusesExactly : Obligations.DecoderRefusesExactly := by
  intro op op1 op2
  refine ⟨fun hop => ?unknown, fun hop hreg h1 => ?badFirst, fun hop h1 h2 => ?badSecond, fun hop h1 h2 => ?good⟩
  case unknown => exact decode_of_notMem_nineOpcodes hop op1 op2
  case badFirst =>
    obtain ⟨o, rfl⟩ := exists_byte_of_mem_nineOpcodes hop
    exact decode_of_bad_first hreg h1 op2
  case badSecond =>
    have hnine : ∀ b ∈ ([0xA0, 0xA2] : List Byte), b ∈ nineOpcodes := by decide
    obtain ⟨o, rfl⟩ := exists_byte_of_mem_nineOpcodes (hnine op hop)
    exact decode_of_bad_second hop h1 h2
  case good =>
    obtain ⟨o, rfl⟩ := exists_byte_of_mem_nineOpcodes hop
    refine ⟨_, decode_byte fun k hk => ?_⟩
    obtain ⟨ho, rfl⟩ | ⟨ho, rfl⟩ := mem_registerOperands hk
    · exact h1 ho
    · exact h2 ho

/-- Settles O18: each word's opcode byte is a row's pattern and its register operands are good, so `decode_byte` reads it;
of the other two, 0xA1 is none of the nine, and 10 names no register. -/
theorem wordsOfTheTableDecode : Obligations.WordsOfTheTableDecode := by
  refine ⟨?ldi, ?prn, ?hlt, ?add, ?mul, ?push, ?pop, ?call, ?ret, ?unknown, ?badRegister⟩
  case ldi => exact decode_byte (o := .ldi) (by decide)
  case prn => exact decode_byte (o := .prn) (by decide)
  case hlt => exact decode_byte (o := .hlt) (by decide)
  case add => exact decode_byte (o := .add) (by decide)
  case mul => exact decode_byte (o := .mul) (by decide)
  case push => exact decode_byte (o := .push) (by decide)
  case pop => exact decode_byte (o := .pop) (by decide)
  case call => exact decode_byte (o := .call) (by decide)
  case ret => exact decode_byte (o := .ret) (by decide)
  case unknown => exact decode_of_notMem_nineOpcodes (by decide) _ _
  case badRegister => exact decode_of_bad_first (o := .add) (by decide) (by decide) _

end Sys2Proof.Proofs
end

section
namespace Sys2Proof.Proofs
open Sys2Proof.Machine State

/-- While Running, what the decoder reads is executed (R53). -/
theorem step_of_fetchDecode_ok {s : State} {i : Instr} (hs : s.status = .running) (hi : s.fetchDecode = .ok i) :
    step s = exec i s := by
  simp only [step, hs, hi]

/-- Settles O23: the bytes at `pc` are what `fetchDecode` decodes. -/
theorem stepRunsDecodedInstruction : Obligations.StepRunsDecodedInstruction :=
  fun _ _ hs hi => step_of_fetchDecode_ok hs hi

/-- While Running, a step takes place: what the decoder refuses is raised, and what it reads has good register operands,
with which every opcode answers a next state (R53, R70). -/
theorem exists_step_of_running {s : State} (hs : s.status = .running) : ∃ t, step s = .next t := by
  cases hd : s.fetchDecode with
  | error e => exact ⟨_, step_of_fetchDecode_error hs hd⟩
  | ok i =>
    obtain ⟨o, _, hregs, rfl⟩ := decode_eq_ok hd
    obtain ⟨t, ht, _⟩ := exec_inv hregs s
    exact ⟨t, (step_of_fetchDecode_ok hs hd).trans ht⟩

/-- Settles O24: `step_cases` says that a step needs the status Running, and `exists_step_of_running` the converse. -/
theorem stepIffRunning : Obligations.StepIffRunning :=
  fun _ => ⟨fun ⟨_, h⟩ => (step_cases h).1, exists_step_of_running⟩

/-- The seven bytes of the opcodes with a register operand are of the nine, and neither HLT's nor RET's (R58, R62). -/
theorem registerOpcodes_subset :
    ∀ b ∈ ([0x82, 0x47, 0xA0, 0xA2, 0x45, 0x46, 0x50] : List Byte), b ∈ nineOpcodes ∧ b ∉ ([0x01, 0x11] : List Byte) := by
  decide

/-- Settles O26: the two clauses of the decoder's refusals for a bad `op1` and a bad `op2`, raised by the step. -/
theorem invalidRegisterFaults : Obligations.InvalidRegisterFaults := by
  intro s hs
  obtain ⟨-, hfirst, hsecond, -⟩ := decoderRefusesExactly (s.readMem s.pc) (s.readMem (s.pc + 1)) (s.readMem (s.pc + 2))
  refine ⟨fun hop h1 => ?badFirst, fun hop h1 h2 => ?badSecond⟩
  case badFirst =>
    obtain ⟨hnine, hreg⟩ := registerOpcodes_subset _ hop
    exact step_of_fetchDecode_error hs (hfirst hnine hreg h1)
  case badSecond => exact step_of_fetchDecode_error hs (hsecond hop h1 h2)

end Sys2Proof.Proofs
end

section
namespace Sys2Proof.Proofs
open Sys2Proof.Machine State

/-- No opcode's effect on a running state is Faulted: only a raised fault is (R90, R91). -/
theorem status_ne_faulted_of_effect {s t : State} {o : Opcode} {op1 op2 : Byte} (hs : s.status = .running)
    (h : Effect s t op1 op2 o) : t.status ≠ .faulted := by
  intro hf
  rcases status_of_effect hs h with ht | ht <;> rw [hf] at ht <;> cases ht

/-- Settles O27: the two faults of a step are one `raise` each, and an opcode's effect is not Faulted. -/
theorem faultsArePrecise : Obligations.FaultsArePrecise := by
  intro s t h hf
  obtain ⟨hs, ⟨hop, rfl⟩ | ⟨o, k, ho, hk, hmem, rfl⟩ | ⟨o, _, _, heff⟩⟩ := step_inv h
  · exact ⟨rfl, .inl ⟨rfl, hop⟩⟩
  · refine ⟨rfl, .inr ⟨k, rfl, hk, ho ▸ byte_mem_nineOpcodes o, ?_⟩⟩
    exact (mem_registerOperands hmem).imp And.right And.right
  · exact absurd hf (status_ne_faulted_of_effect hs heff)

/-- A step leaves the status Running, Halted or Faulted (R25). -/
theorem status_of_step {s t : State} (h : step s = .next t) :
    t.status = .running ∨ t.status = .halted ∨ t.status = .faulted := by
  obtain ⟨hs, ⟨_, rfl⟩ | ⟨_, _, _, _, _, rfl⟩ | ⟨_, _, _, heff⟩⟩ := step_inv h
  · exact .inr (.inr rfl)
  · exact .inr (.inr rfl)
  · exact (status_of_effect hs heff).imp_right .inl

/-- HLT's pattern is 0x01, and no other row's is (R62). -/
theorem byte_eq_hlt_iff (o : Opcode) : o.byte = 0x01 ↔ o = .hlt := by
  cases o <;> decide

/-- Settles O32: a fault is neither Halted nor at HLT's byte, and an opcode's effect keeps the record and is Halted for HLT
alone. -/
theorem statusAfterStep : Obligations.StatusAfterStep := by
  intro s t h
  refine ⟨status_of_step h, ?_⟩
  obtain ⟨hs, ⟨hop, rfl⟩ | ⟨o, k, ho, hk, hmem, rfl⟩ | ⟨o, ho, _, heff⟩⟩ := step_inv h
  · have hne : s.readMem s.pc ≠ 0x01 := fun h1 => hop (h1 ▸ by decide)
    exact ⟨iff_of_false Status.noConfusion hne, absurd rfl⟩
  · have hne : s.readMem s.pc ≠ 0x01 := by
      rw [ho, Ne, byte_eq_hlt_iff]
      rintro rfl
      exact absurd hmem List.not_mem_nil
    exact ⟨iff_of_false Status.noConfusion hne, absurd rfl⟩
  · obtain ⟨hfault, hstatus⟩ := heff.runState
    refine ⟨?_, fun _ => hfault⟩
    rw [hstatus, hs, ho, byte_eq_hlt_iff]
    split
    · exact iff_of_true rfl ‹_›
    · exact iff_of_false Status.noConfusion ‹_›

end Sys2Proof.Proofs
end

section
namespace Sys2Proof.Proofs
open Sys2Proof.Machine State

/-- A register operand byte names SP exactly when it is 7 (R18). -/
theorem mk_eq_spIndex_iff {k : Byte} (h : k.toNat < 8) : (⟨k.toNat, h⟩ : Reg) = Config.spIndex ↔ k.toNat = 7 :=
  Fin.ext_iff

/-- Settles O5: the push decrements SP before it reads the register, so the byte stored is `readMem_pushReg`'s: the
register, or the decremented SP for R7. -/
theorem pushStoresBelowOldTop : Obligations.PushStoresBelowOldTop := by
  intro s r1 h
  refine ⟨_, exec_push_of_lt s h, ?sp, fun h7 => ?stored, fun h7 => ?storedSp, fun a ha => ?mem, fun q hq => ?regs, ?pc,
    ?out, ?runState⟩
  case sp => rw [sp_advance, sp_pushReg]
  case stored => rw [readMem_advance, readMem_pushReg, if_pos rfl, if_neg (mt (mk_eq_spIndex_iff h).1 h7)]
  case storedSp => rw [readMem_advance, readMem_pushReg, if_pos rfl, if_pos ((mk_eq_spIndex_iff h).2 h7)]
  case mem => rw [readMem_advance, readMem_pushReg, if_neg ha]
  case regs => rw [reg_advance, reg_pushReg, if_neg hq]
  case pc => exact advance_pc _ _
  case out => rw [advance_out, pushReg_out]
  case runState => exact ⟨by rw [advance_status, pushReg_status], by rw [advance_fault, pushReg_fault]⟩

/-- Settles O6: the pop writes the register before it increments SP, so a pop into R7 increments the byte read. -/
theorem popLoadsTop : Obligations.PopLoadsTop := by
  intro s r1 h
  refine ⟨_, exec_pop_of_lt s h, fun h7 => ?other, fun h7 => ?sp, fun q hq hsp => ?regs, fun a => ?mem, ?pc, ?out,
    ?runState⟩
  case other =>
    have hne : (⟨r1.toNat, h⟩ : Reg) ≠ Config.spIndex := mt (mk_eq_spIndex_iff h).1 h7
    refine ⟨?_, ?_⟩
    · rw [reg_advance, reg_popReg, if_neg hne, if_pos rfl]
    · rw [sp_advance, sp_popReg, if_neg hne.symm]
  case sp => rw [sp_advance, sp_popReg, if_pos ((mk_eq_spIndex_iff h).2 h7).symm]
  case regs =>
    have hne : q ≠ ⟨r1.toNat, h⟩ := fun hr => hq (congrArg Fin.val hr)
    rw [reg_advance, reg_popReg, if_neg hsp, if_neg hne]
  case mem => rw [readMem_advance, readMem_popReg]
  case pc => exact advance_pc _ _
  case out => rw [advance_out, popReg_out]
  case runState => exact ⟨by rw [advance_status, popReg_status], by rw [advance_fault, popReg_fault]⟩

/-- Settles O7: the return address is pushed first, and `pc` then takes the register of the pushed state, where R7 is
already decremented. -/
theorem callPushesReturnAddress : Obligations.CallPushesReturnAddress := by
  intro s r1 h
  refine ⟨_, exec_call_of_lt s h, ?sp, ?stored, fun a ha => ?mem, fun q hq => ?regs, fun h7 => ?target,
    fun h7 => ?targetSp, ?out, ?runState⟩
  case sp => rw [sp_setPc, sp_pushValue]
  case stored => rw [readMem_setPc, readMem_pushValue, if_pos rfl]
  case mem => rw [readMem_setPc, readMem_pushValue, if_neg ha]
  case regs => rw [reg_setPc, reg_pushValue, if_neg hq]
  case target => rw [setPc_pc, reg_pushValue, if_neg (mt (mk_eq_spIndex_iff h).1 h7)]
  case targetSp => rw [setPc_pc, reg_pushValue, if_pos ((mk_eq_spIndex_iff h).2 h7)]
  case out => rw [setPc_out, pushValue_out]
  case runState => exact ⟨by rw [setPc_status, pushValue_status], by rw [setPc_fault, pushValue_fault]⟩

/-- Settles O8: each of the three is one register operand, so a bad byte is the first one that `exec_of_bad_register`
finds. -/
theorem stackFormsTrapOnBadRegister : Obligations.StackFormsTrapOnBadRegister := by
  intro s k hk
  have hfirst : [k].find? (fun k => 7 < k.toNat) = some k := List.find?_cons_of_pos (decide_eq_true hk)
  exact ⟨exec_of_bad_register (.push k) k s hfirst, exec_of_bad_register (.pop k) k s hfirst,
    exec_of_bad_register (.call k) k s hfirst⟩

/-- Settles O9: RET is one `incSp` and one `setPc` in every state. -/
theorem retPopsPc : Obligations.RetPopsPc := by
  intro s
  refine ⟨_, exec_ret s, ?pc, ?sp, fun q hq => ?regs, fun a => ?mem, ?out, ?runState⟩
  case pc => exact setPc_pc _ _
  case sp => rw [sp_setPc, sp_incSp]
  case regs => rw [reg_setPc, reg_incSp, if_neg hq]
  case mem => rw [readMem_setPc, readMem_incSp]
  case out => rw [setPc_out, incSp_out]
  case runState => exact ⟨by rw [setPc_status, incSp_status], by rw [setPc_fault, incSp_fault]⟩

/-- Settles O10: HLT is one `halt` and one `advance` in every state. -/
theorem hltHalts : Obligations.HltHalts := by
  intro s
  refine ⟨_, exec_hlt s, ?status, ?pc, fun q => ?regs, fun a => ?mem, ?out, ?fault⟩
  case status => rw [advance_status, halt_status]
  case pc => exact advance_pc _ _
  case regs => rw [reg_advance, reg_halt]
  case mem => rw [readMem_advance, readMem_halt]
  case out => rw [advance_out, halt_out]
  case fault => rw [advance_fault, halt_fault]

end Sys2Proof.Proofs
end

section
namespace Sys2Proof.Proofs
open Sys2Proof.Machine State

/-- Settles O11: the PUSH leaves its register's byte at the new SP, which is the byte and the SP that the POP takes. -/
theorem pushThenPopCopies : Obligations.PushThenPopCopies := by
  intro s ra rb ha hb hab
  obtain ⟨t, ht, htsp, hstored, -, hmem, hregs, hpc, -⟩ := pushStoresBelowOldTop s ra (by omega)
  obtain ⟨u, hu, hother, -, huregs, humem, hupc, -⟩ := popLoadsTop t rb (by omega)
  obtain ⟨hread, husp⟩ := hother (by omega)
  have hbyte : t.readMem (s.sp - 1) = s.reg ⟨ra.toNat, by omega⟩ := hstored (by omega)
  have hsp : u.sp = s.sp := by rw [husp, htsp, sub_add_cancel]
  refine ⟨t, u, ht, hu, ?copied, hsp, ?left, fun a hne => ?mem, fun q hq => ?regs, ?pc⟩
  case copied => rw [hread, htsp, hbyte]
  case left => rw [humem, hbyte]
  case mem => rw [humem, hmem a hne]
  case regs =>
    by_cases hq7 : q = Config.spIndex
    · rw [hq7]
      exact hsp
    · rw [huregs q hq hq7, hregs q hq7]
  case pc => rw [hupc, hpc, add_assoc]; rfl

/-- Settles O12: RET looks at SP and the byte at SP alone, and these are the CALL's: one below the old SP, and the address
after the CALL. -/
theorem callThenRetReturns : Obligations.CallThenRetReturns := by
  intro s r1 h
  obtain ⟨t, ht, htsp, hstored, -⟩ := callPushesReturnAddress s r1 h
  refine ⟨t, ht, fun u husp hutop => ?_⟩
  obtain ⟨w, hw, hpc, hwsp, -⟩ := retPopsPc u
  refine ⟨w, hw, ?pc, ?sp⟩
  case pc => rw [hpc, husp, hutop, htsp, hstored]
  case sp => rw [hwsp, husp, htsp, sub_add_cancel]

/-- Settles O33: after the PUSH `pc` is the address just stored to, and the two bytes after it are at other addresses. -/
theorem pushedByteIsFetchedNext : Obligations.PushedByteIsFetchedNext := by
  intro s r1 h hsp
  obtain ⟨t, ht, -, hstored, -, hmem, -, hpc, -⟩ := pushStoresBelowOldTop s r1 (by omega)
  have hop : t.readMem (s.pc + 2) = s.reg ⟨r1.toNat, by omega⟩ := hsp ▸ hstored (by omega)
  have hop1 : t.readMem (s.pc + 2 + 1) = s.readMem (s.pc + 3) := by
    rw [hmem _ (by rw [hsp]; bv_omega), add_assoc]; rfl
  have hop2 : t.readMem (s.pc + 2 + 2) = s.readMem (s.pc + 4) := by
    rw [hmem _ (by rw [hsp]; bv_omega), add_assoc]; rfl
  exact ⟨t, ht, by rw [fetchDecode, hpc, hop, hop1, hop2]⟩

end Sys2Proof.Proofs
end

section
namespace Sys2Proof.Proofs
open Sys2Proof.Machine State

/-- The ALU's SUB answers a byte, which is the difference modulo 256 (R77). -/
theorem alu_sub_toNat (A B : Byte) : ∃ v, alu .sub A B = .ok v ∧
    v.toNat = if B.toNat ≤ A.toNat then A.toNat - B.toNat else A.toNat + 256 - B.toNat := by
  refine ⟨_, rfl, ?_⟩
  have hA := A.isLt
  have hB := B.isLt
  rw [wrap8, BitVec.toNat_ofInt]
  split <;> omega

/-- The ALU's DIV answers a byte for a divisor other than 0, which is the truncated quotient (R79). -/
theorem alu_div_toNat {A B : Byte} (hB : B.toNat ≠ 0) : ∃ v, alu .div A B = .ok v ∧ v.toNat = A.toNat / B.toNat := by
  have hB0 : B ≠ 0 := fun h => hB (congrArg BitVec.toNat h)
  have hquot : A.toNat / B.toNat < 256 := (Nat.div_le_self _ _).trans_lt A.isLt
  exact ⟨_, if_neg hB0, by rw [wrap8_toNat, Nat.mod_eq_of_lt hquot]⟩

/-- Settles O13: one lemma per function of the ALU; the two failures are its own branches. -/
theorem aluFunctions : Obligations.AluFunctions := by
  intro A B
  refine ⟨alu_add_toNat A B, alu_sub_toNat A B, alu_mul_toNat A B, alu_div_toNat, fun hB => ?divByZero, rfl⟩
  case divByZero => exact if_pos (BitVec.eq_of_toNat_eq hB)

end Sys2Proof.Proofs
end

section
namespace Sys2Proof.Proofs
open Sys2Proof.Machine State

/-- An opcode's effect writes no byte of memory but the one below SP, for PUSH and CALL (R38). -/
theorem readMem_of_effect {s t : State} {o : Opcode} {op1 op2 : Byte} (h : Effect s t op1 op2 o) {a : Byte}
    (ha : o.byte ∈ ([0x45, 0x50] : List Byte) → a ≠ s.sp - 1) : t.readMem a = s.readMem a := by
  cases o <;> unfold Effect at h
  case push =>
    obtain ⟨_, rfl⟩ := h
    rw [readMem_advance, readMem_pushReg, if_neg (ha (by decide))]
  case call =>
    obtain ⟨_, rfl⟩ := h
    rw [readMem_setPc, readMem_pushValue, if_neg (ha (by decide))]
  case hlt => subst h; rfl
  case ret => subst h; rfl
  case add => obtain ⟨_, _, rfl⟩ := h; rfl
  case mul => obtain ⟨_, _, rfl⟩ := h; rfl
  all_goals obtain ⟨_, rfl⟩ := h; rfl

/-- Settles O28: a fault writes no memory, and `readMem_of_effect` names the byte an opcode's effect writes. -/
theorem stepStoresOnlyAtNewTop : Obligations.StepStoresOnlyAtNewTop := by
  intro s t h
  obtain ⟨-, ⟨_, rfl⟩ | ⟨_, _, _, _, _, rfl⟩ | ⟨o, ho, _, heff⟩⟩ := step_inv h
  · exact ⟨fun _ _ => rfl, fun _ _ => rfl⟩
  · exact ⟨fun _ _ => rfl, fun _ _ => rfl⟩
  · refine ⟨fun a ha => readMem_of_effect heff fun _ => ha, fun hop a => readMem_of_effect heff fun hm => ?_⟩
    exact absurd (ho ▸ hm) hop

/-- An opcode's effect changes no register but R7, for the four opcodes that use the stack, and the one `op1` names, for
the four that write it (R19). -/
theorem reg_of_effect {s t : State} {o : Opcode} {op1 op2 : Byte} (h : Effect s t op1 op2 o) {q : Reg}
    (hsp : o.byte ∈ ([0x45, 0x46, 0x50, 0x11] : List Byte) → q ≠ Config.spIndex)
    (hop1 : o.byte ∈ ([0x82, 0xA0, 0xA2, 0x46] : List Byte) → q.val ≠ op1.toNat) : t.reg q = s.reg q := by
  have hne (hk : op1.toNat < 8) (ho : o.byte ∈ ([0x82, 0xA0, 0xA2, 0x46] : List Byte)) : q ≠ ⟨op1.toNat, hk⟩ :=
    fun hq => hop1 ho (congrArg Fin.val hq)
  cases o <;> unfold Effect at h
  case ldi =>
    obtain ⟨hk, rfl⟩ := h
    rw [reg_advance, reg_setReg, if_neg (hne hk (by decide))]
  case add =>
    obtain ⟨hk, _, rfl⟩ := h
    rw [reg_advance, reg_setReg, if_neg (hne hk (by decide))]
  case mul =>
    obtain ⟨hk, _, rfl⟩ := h
    rw [reg_advance, reg_setReg, if_neg (hne hk (by decide))]
  case push =>
    obtain ⟨_, rfl⟩ := h
    rw [reg_advance, reg_pushReg, if_neg (hsp (by decide))]
  case pop =>
    obtain ⟨hk, rfl⟩ := h
    rw [reg_advance, reg_popReg, if_neg (hsp (by decide)), if_neg (hne hk (by decide))]
  case call =>
    obtain ⟨_, rfl⟩ := h
    rw [reg_setPc, reg_pushValue, if_neg (hsp (by decide))]
  case ret =>
    subst h
    rw [reg_setPc, reg_incSp, if_neg (hsp (by decide))]
  case prn => obtain ⟨_, rfl⟩ := h; rfl
  case hlt => subst h; rfl

/-- Settles O29: a fault changes no register, and `reg_of_effect` names those an opcode's effect changes. -/
theorem stepWritesOnlyNamedRegisters : Obligations.StepWritesOnlyNamedRegisters := by
  intro s t h q hq
  obtain ⟨-, ⟨_, rfl⟩ | ⟨_, _, _, _, _, rfl⟩ | ⟨o, ho, _, heff⟩⟩ := step_inv h
  · exact absurd (reg_raise _ _ _ q) hq
  · exact absurd (reg_raise _ _ _ q) hq
  · rw [ho]
    by_contra hnone
    obtain ⟨hsp, hop1⟩ := not_or.1 hnone
    exact hq (reg_of_effect heff (fun hm hr => hsp ⟨hr, hm⟩) (fun hm hr => hop1 ⟨hr, hm⟩))

/-- An opcode's effect moves `pc` on by one more than bits 7:6 of its pattern, but for CALL and RET (R63, R67). -/
theorem pc_of_effect {s t : State} {o : Opcode} {op1 op2 : Byte} (h : Effect s t op1 op2 o)
    (ho : o.byte ∉ ([0x50, 0x11] : List Byte)) : t.pc = s.pc + 1 + (o.byte >>> 6) := by
  rw [add_assoc]
  cases o <;> unfold Effect at h
  case call => exact absurd (by decide) ho
  case ret => exact absurd (by decide) ho
  case hlt => subst h; rfl
  case add => obtain ⟨_, _, rfl⟩ := h; rfl
  case mul => obtain ⟨_, _, rfl⟩ := h; rfl
  all_goals obtain ⟨_, rfl⟩ := h; rfl

/-- Settles O30: a fault leaves `pc`, and an opcode's effect is not Faulted and moves `pc` as `pc_of_effect` says. -/
theorem stepAdvancesPc : Obligations.StepAdvancesPc := by
  intro s t h
  obtain ⟨hs, ⟨_, rfl⟩ | ⟨_, _, _, _, _, rfl⟩ | ⟨o, ho, _, heff⟩⟩ := step_inv h
  · exact ⟨fun _ => rfl, absurd rfl⟩
  · exact ⟨fun _ => rfl, absurd rfl⟩
  · refine ⟨fun hf => absurd hf (status_ne_faulted_of_effect hs heff), fun _ hop => ?_⟩
    rw [ho] at hop ⊢
    exact pc_of_effect heff hop

/-- Only PRN's effect emits, and it emits the byte of the register `op1` names (R74, R102). -/
theorem out_of_effect {s t : State} {o : Opcode} {op1 op2 : Byte} (h : Effect s t op1 op2 o) :
    t.out = s.out ∨ (o = .prn ∧ ∃ hk : op1.toNat < 8, t.out = s.out ++ [s.reg ⟨op1.toNat, hk⟩]) := by
  cases o <;> unfold Effect at h
  case prn =>
    obtain ⟨hk, rfl⟩ := h
    exact .inr ⟨rfl, hk, rfl⟩
  case hlt => subst h; exact .inl rfl
  case ret => subst h; exact .inl rfl
  case add => obtain ⟨_, _, rfl⟩ := h; exact .inl rfl
  case mul => obtain ⟨_, _, rfl⟩ := h; exact .inl rfl
  all_goals obtain ⟨_, rfl⟩ := h; exact .inl rfl

/-- Settles O31: a fault emits nothing, and an opcode's effect emits only for PRN. -/
theorem outputIsAppendOnlyByPrn : Obligations.OutputIsAppendOnlyByPrn := by
  intro s t h
  obtain ⟨-, ⟨_, rfl⟩ | ⟨_, _, _, _, _, rfl⟩ | ⟨o, ho, _, heff⟩⟩ := step_inv h
  · exact .inl rfl
  · exact .inl rfl
  · exact (out_of_effect heff).imp_right fun ⟨hprn, hemit⟩ => ⟨ho.trans (congrArg Opcode.byte hprn), hemit⟩

end Sys2Proof.Proofs
end

section
namespace Sys2Proof.Proofs
open Sys2Proof.Machine State

/-- A function on states that does not read `out`: it appends bytes that do not depend on `out`, and does the same from
any other `out` (R31, R102). -/
def IgnoresOutput (f : State → State) : Prop :=
  ∀ s, ∃ w : List Byte, (f s).out = s.out ++ w ∧ ∀ o : List Byte, f { s with out := o } = { f s with out := o ++ w }

/-- A function on states that reads no byte of memory but the one at SP: from any memory with that byte it changes the
items outside memory in the same way, and where the two memories agreed, the results agree (R38). -/
def ReadsOnlyTop (f : State → State) : Prop :=
  ∀ (s : State) (m : Memory), m.read s.sp.toNat = s.readMem s.sp →
    ∃ n : Memory, f { s with mem := m } = { f s with mem := n } ∧
      ∀ a : Byte, m.read a.toNat = s.readMem a → n.read a.toNat = (f s).readMem a

/-- A function that keeps `out` and does the same from any other does not read it. -/
theorem IgnoresOutput.of_keeps {f : State → State} (hkeep : ∀ s, (f s).out = s.out)
    (hcomm : ∀ (s : State) (o : List Byte), f { s with out := o } = { f s with out := o }) : IgnoresOutput f :=
  fun s => ⟨[], by rw [hkeep, List.append_nil], fun o => by rw [hcomm, List.append_nil]⟩

/-- A function that keeps memory and does the same from any other with the byte at SP reads only that byte. -/
theorem ReadsOnlyTop.of_keeps {f : State → State} (hkeep : ∀ s a, (f s).readMem a = s.readMem a)
    (hcomm : ∀ (s : State) (m : Memory), m.read s.sp.toNat = s.readMem s.sp →
      f { s with mem := m } = { f s with mem := m }) : ReadsOnlyTop f :=
  fun s m htop => ⟨m, hcomm s m htop, fun a ha => ha.trans (hkeep s a).symm⟩

/-- The two memories after the same byte is written at the same address agree wherever they agreed before. -/
theorem read_write_congr {m : Memory} {s : State} {a v : Byte} (b : Byte) (h : m.read b.toNat = s.readMem b) :
    (m.write a.toNat v).read b.toNat = (s.writeMem a v).readMem b := by
  rw [Memory.read_write, readMem_writeMem, h]
  simp only [BitVec.toNat_inj]

/-- PUSH reads no memory: it stores the same byte at the same address whatever memory holds (R85). -/
theorem readsOnlyTop_push (r : Reg) : ReadsOnlyTop fun s => (s.pushReg r).advance 1 :=
  fun s m _ => ⟨m.write s.decSp.sp.toNat (s.decSp.reg r), rfl, read_write_congr (s := s.decSp)⟩

/-- CALL reads no memory: it stores the same byte at the same address whatever memory holds (R87). -/
theorem readsOnlyTop_call (r : Reg) :
    ReadsOnlyTop fun s => (s.pushValue (s.pc + 2)).setPc ((s.pushValue (s.pc + 2)).reg r) :=
  fun s m _ => ⟨m.write s.decSp.sp.toNat (s.pc + 2), rfl, read_write_congr (s := s.decSp)⟩

/-- POP reads the byte at SP alone (R86). -/
theorem readsOnlyTop_pop (r : Reg) : ReadsOnlyTop fun s => (s.popReg r).advance 1 :=
  .of_keeps (fun _ _ => rfl) fun s m htop => by
    have hread : ({ s with mem := m } : State).readMem ({ s with mem := m } : State).sp = s.readMem s.sp := htop
    simp only [popReg, hread]
    rfl

/-- RET reads the byte at SP alone (R88). -/
theorem readsOnlyTop_ret : ReadsOnlyTop fun s => s.incSp.setPc (s.readMem s.sp) :=
  .of_keeps (fun _ _ => rfl) fun s m htop => by
    have hread : ({ s with mem := m } : State).readMem ({ s with mem := m } : State).sp = s.readMem s.sp := htop
    simp only [hread]
    rfl

/-- A well-formed instruction is one function on states, which does not read `out` and reads no byte of memory but the one
at SP. -/
theorem exec_of_wellFormed {i : Instr} (h : i.wellFormed = true) :
    ∃ f, (∀ s, exec i s = .next (f s)) ∧ IgnoresOutput f ∧ ReadsOnlyTop f := by
  cases i with
  | ldi r1 imm =>
    have hr := (namesRegister_iff r1).1 h
    exact ⟨_, (exec_ldi_of_lt · hr imm), .of_keeps (fun _ => rfl) fun _ _ => rfl, .of_keeps (fun _ _ => rfl) fun _ _ _ => rfl⟩
  | prn r1 =>
    have hr := (namesRegister_iff r1).1 h
    exact ⟨_, (exec_prn_of_lt · hr), fun s => ⟨[s.reg ⟨r1.toNat, hr⟩], rfl, fun _ => rfl⟩,
      .of_keeps (fun _ _ => rfl) fun _ _ _ => rfl⟩
  | hlt => exact ⟨_, exec_hlt, .of_keeps (fun _ => rfl) fun _ _ => rfl, .of_keeps (fun _ _ => rfl) fun _ _ _ => rfl⟩
  | add r1 r2 =>
    obtain ⟨h1, h2⟩ := Bool.and_eq_true_iff.1 h
    exact ⟨_, (exec_add_of_lt · ((namesRegister_iff r1).1 h1) ((namesRegister_iff r2).1 h2)),
      .of_keeps (fun _ => rfl) fun _ _ => rfl, .of_keeps (fun _ _ => rfl) fun _ _ _ => rfl⟩
  | mul r1 r2 =>
    obtain ⟨h1, h2⟩ := Bool.and_eq_true_iff.1 h
    exact ⟨_, (exec_mul_of_lt · ((namesRegister_iff r1).1 h1) ((namesRegister_iff r2).1 h2)),
      .of_keeps (fun _ => rfl) fun _ _ => rfl, .of_keeps (fun _ _ => rfl) fun _ _ _ => rfl⟩
  | push r1 =>
    exact ⟨_, (exec_push_of_lt · ((namesRegister_iff r1).1 h)), .of_keeps (fun _ => rfl) fun _ _ => rfl,
      readsOnlyTop_push _⟩
  | pop r1 =>
    exact ⟨_, (exec_pop_of_lt · ((namesRegister_iff r1).1 h)), .of_keeps (fun _ => rfl) fun _ _ => rfl,
      readsOnlyTop_pop _⟩
  | call r1 =>
    exact ⟨_, (exec_call_of_lt · ((namesRegister_iff r1).1 h)), .of_keeps (fun _ => rfl) fun _ _ => rfl,
      readsOnlyTop_call _⟩
  | ret => exact ⟨_, exec_ret, .of_keeps (fun _ => rfl) fun _ _ => rfl, readsOnlyTop_ret⟩

/-- A step is one function on states, fixed by what the fetch decodes: every running state that decodes the same takes the
step of that function, which does not read `out` and reads no byte of memory but the one at SP. -/
theorem step_eq_of_fetchDecode_eq {s t : State} (h : step s = .next t) :
    ∃ f, t = f s ∧ (∀ u : State, u.status = s.status → u.fetchDecode = s.fetchDecode → step u = .next (f u)) ∧
      IgnoresOutput f ∧ ReadsOnlyTop f := by
  obtain ⟨hs, ⟨e, hd, rfl⟩ | ⟨i, hd, hx⟩⟩ := step_cases h
  · refine ⟨(raiseDecode · e), rfl, fun u hu hud => ?_, ?_⟩
    · exact step_of_fetchDecode_error (hu.trans hs) (hud.trans hd)
    · cases e <;> exact ⟨.of_keeps (fun _ => rfl) fun _ _ => rfl, .of_keeps (fun _ _ => rfl) fun _ _ _ => rfl⟩
  · obtain ⟨hi, -⟩ := encodeOfDecodeIsIdentity _ _ _ _ hd
    obtain ⟨f, hf, hout, hmem⟩ := exec_of_wellFormed hi
    have ht : t = f s := by
      rw [hf s] at hx
      cases hx
      rfl
    exact ⟨f, ht, fun u hu hud => (step_of_fetchDecode_ok (hu.trans hs) (hud.trans hd)).trans (hf u), hout, hmem⟩

/-- Settles O34: the fetch does not read `out`, so the step from any other `out` is the same function, which does not
either. -/
theorem stepDoesNotReadOutput : Obligations.StepDoesNotReadOutput := by
  intro s t h
  obtain ⟨f, rfl, hstep, hout, -⟩ := step_eq_of_fetchDecode_eq h
  obtain ⟨w, hw, hother⟩ := hout s
  refine ⟨w, hw, fun o => ?_⟩
  rw [hstep { s with out := o } rfl rfl, hother]

/-- Settles O35: the three bytes at `pc` fix what the fetch decodes, and of the memory the step then reads the byte at SP
alone. -/
theorem stepReadsOnlyFetchedBytesAndTop : Obligations.StepReadsOnlyFetchedBytesAndTop := by
  intro s t m h hm
  simp only [List.forall_mem_cons] at hm
  obtain ⟨hop, hop1, hop2, htop, -⟩ := hm
  obtain ⟨f, rfl, hstep, -, hmem⟩ := step_eq_of_fetchDecode_eq h
  obtain ⟨n, hn, hagree⟩ := hmem s m htop
  have hfetch : ({ s with mem := m } : State).fetchDecode = s.fetchDecode := by
    simp only [fetchDecode, ← hop, ← hop1, ← hop2]
    rfl
  exact ⟨n, by rw [hstep { s with mem := m } rfl hfetch, hn], hagree⟩

end Sys2Proof.Proofs
end

section
namespace Sys2Proof.Proofs
open Sys2Proof.Machine State

/-- Settles O36: the reset state is Idle with empty memory and no record, at its own entry values. -/
theorem invariantHoldsAtReset : Obligations.InvariantHoldsAtReset where
  memWf := ⟨List.Pairwise.nil, by simp [State.reset]⟩
  faultRecord := by decide
  faultPc := by rintro r ⟨⟩
  faultKind := by rintro r ⟨⟩
  atEntry := fun _ => ⟨rfl, rfl, rfl⟩
  memIdle := fun _ => rfl

/-- A load that is refused returns its reason and changes no state (R115). -/
theorem transact_load_of_error {s : State} {b : List Byte} {r : LoadRefusal} (h : s.load b = .error r) :
    transact (.load b) s = (.loadRefused r, s) := by
  rw [transact, h]

/-- An accepted run answers that it is done, with the running state. -/
theorem transact_run_of_ok {s t : State} (h : s.startRun = .ok t) : transact .run s = (.done, t) := by
  rw [transact, h]

/-- A run that is refused returns its reason and changes no state (R116). -/
theorem transact_run_of_error {s : State} {r : RunRefusal} (h : s.startRun = .error r) :
    transact .run s = (.runRefused r, s) := by
  rw [transact, h]

/-- Everything a transaction can leave behind: the reset state, an accepted load's or run's state, or the state as it was
(R104, R106, R115, R116). -/
theorem transact_cases (q : HostRequest) (s : State) :
    (transact q s).2 = State.reset ∨ (transact q s).2 = s ∨ (∃ b, s.load b = .ok (transact q s).2) ∨
      s.startRun = .ok (transact q s).2 := by
  cases q with
  | reset => exact .inl rfl
  | load b =>
    cases hb : s.load b with
    | ok t => exact .inr (.inr (.inl ⟨b, by rw [transact_load_of_ok hb, hb]⟩))
    | error r => exact .inr (.inl (by rw [transact_load_of_error hb]))
  | run =>
    cases hr : s.startRun with
    | ok t => exact .inr (.inr (.inr (by rw [transact_run_of_ok hr])))
    | error r => exact .inr (.inl (by rw [transact_run_of_error hr]))
  | readStatus => exact .inr (.inl rfl)
  | readFault => exact .inr (.inl rfl)
  | debugRead => exact .inr (.inl rfl)
  | readOutput => exact .inr (.inl rfl)

/-- An accepted load keeps the invariant: it places bytes in canonical memory, and leaves the entry values of Idle (R114). -/
theorem inv_of_load {s t : State} {b : List Byte} (hinv : s.Inv) (h : s.load b = .ok t) : t.Inv := by
  obtain ⟨hs, -, -, rfl⟩ := load_ok h
  have hnone : s.fault = none := fault_eq_none_of_inv hinv (by rw [hs]; exact Status.noConfusion)
  exact {
    memWf := wf_placeBytes s b 0 hinv.memWf
    faultRecord := by simp [hnone]
    faultPc := by simp [hnone]
    faultKind := by simp [hnone]
    atEntry := fun _ => by simpa using hinv.atEntry (by rw [hs]; rfl)
    memIdle := by rintro ⟨⟩ }

/-- An accepted run keeps the invariant (R116). -/
theorem inv_of_startRun {s t : State} (hinv : s.Inv) (h : s.startRun = .ok t) : t.Inv := by
  obtain ⟨hs, rfl⟩ := startRun_ok h
  have hnone : s.fault = none := fault_eq_none_of_inv hinv (by rw [hs]; exact Status.noConfusion)
  exact inv_of_running_or_halted hinv.memWf hnone (.inl rfl)

/-- Settles O38: a transaction leaves the reset state, the state as it was, or that of an accepted load or run. -/
theorem hostTransactionKeepsInvariant : Obligations.HostTransactionKeepsInvariant := by
  intro q s hinv
  obtain h | h | ⟨b, h⟩ | h := transact_cases q s
  · rw [h]
    exact invariantHoldsAtReset
  · rw [h]
    exact hinv
  · exact inv_of_load hinv h
  · exact inv_of_startRun hinv h

/-- Every reachable state has the invariant: reset has it, and steps and transactions keep it. -/
theorem inv_of_reachable {s : State} (h : Reachable s) : s.Inv := by
  induction h with
  | reset => exact invariantHoldsAtReset
  | step _ hstep ih =>
    cases hstep with
    | core h => exact stepKeepsInvariant _ _ ih h
    | host q => exact hostTransactionKeepsInvariant q _ ih

/-- Settles O39: a step needs the status Running and leaves one of three; a transaction leaves the reset state, the state as
it was, or that of an accepted load or run. -/
theorem statusMovesOnlyAlongTheTable : Obligations.StatusMovesOnlyAlongTheTable := by
  intro s t h
  cases h with
  | core h => exact .inr (.inr (.inr (.inr ⟨(step_cases h).1, status_of_step h⟩)))
  | host q =>
    obtain h | h | ⟨b, h⟩ | h := transact_cases q s
    · exact .inl h
    · exact .inr (.inl h)
    · obtain ⟨hs, -, -, ht⟩ := load_ok h
      exact .inr (.inr (.inl ⟨hs, by rw [ht]⟩))
    · exact .inr (.inr (.inr (.inl (startRun_ok h))))

/-- Every register is 0 at reset (R107). -/
theorem reg_reset (q : Reg) : State.reset.reg q = 0 := by
  simp [reg, State.reset, Config.resetReg]

/-- Settles O40: a reachable state has the invariant, so in Loaded, where alone a run is accepted, it stands at its entry
values with no record. -/
theorem everyRunStartsAtEntry : Obligations.EveryRunStartsAtEntry := by
  intro s t hreach h
  have hinv := inv_of_reachable hreach
  obtain ⟨hs, rfl⟩ := startRun_ok h
  obtain ⟨hx, hpc, hout⟩ := hinv.atEntry (by rw [hs]; rfl)
  have hnone : s.fault = none := fault_eq_none_of_inv hinv (by rw [hs]; exact Status.noConfusion)
  refine ⟨rfl, hpc, fun q => ?regs, hout, hnone, fun _ => rfl⟩
  case regs =>
    refine Eq.trans ?_ (reg_reset q)
    simp only [reg, hx]

end Sys2Proof.Proofs
end

section
namespace Sys2Proof.Proofs
open Sys2Proof.Machine State

/-- A run of `n + 1` steps from a state that takes a step is a run of `n` from the next. -/
theorem runSteps_succ_of_step {s t : State} (h : step s = .next t) (n : Nat) : runSteps (n + 1) s = runSteps n t := by
  simp only [runSteps, h]

/-- Running for `n + k` steps is running for `n` and then for `k`. -/
theorem runSteps_add (n k : Nat) (s : State) : runSteps (n + k) s = runSteps k (runSteps n s) := by
  induction n generalizing s with
  | zero => rw [Nat.zero_add]; rfl
  | succ n ih =>
    by_cases hs : s.status = .running
    · obtain ⟨t, ht⟩ := exists_step_of_running hs
      rw [Nat.succ_add, runSteps_succ_of_step ht, runSteps_succ_of_step ht, ih]
    · simp only [runSteps_of_not_running hs]

/-- A run that has reached an outcome stays there: any later number of steps gives the same state (R99, R121). -/
theorem runSteps_of_le {s : State} {o : RunOutcome} {n m : Nat} (h : (runSteps n s).outcome? = some o) (hnm : n ≤ m) :
    runSteps m s = runSteps n s := by
  obtain ⟨k, rfl⟩ := Nat.exists_eq_add_of_le hnm
  rw [runSteps_add, runSteps_of_not_running (not_running_of_outcome h)]

/-- Settles O41: of two numbers of steps that reach an outcome the greater adds nothing to the less, so the final states are
equal, and a state shows one outcome. -/
theorem runOutcomeIsUnique : Obligations.RunOutcomeIsUnique := by
  rintro s t u o p ⟨n, rfl, ho⟩ ⟨m, rfl, hp⟩
  have heq : runSteps n s = runSteps m s := by
    obtain hnm | hmn := Nat.le_total n m
    · exact (runSteps_of_le ho hnm).symm
    · exact runSteps_of_le hp hmn
  exact ⟨Option.some.inj (ho.symm.trans (heq ▸ hp)), heq⟩

/-- A Faulted state's outcome is its record (R116). -/
theorem outcome?_of_faulted {s : State} {r : FaultRecord} (hs : s.status = .faulted) (hr : s.fault = some r) :
    s.outcome? = some (.faulted r) := by
  simp only [outcome?, hs, hr, Option.map_some]

/-- A step either leaves the core Running or ends the run with an outcome: a step that ends Faulted has written its record
(R91, R121). -/
theorem running_or_outcome_of_step {s t : State} (h : step s = .next t) :
    t.status = .running ∨ ∃ o, t.outcome? = some o := by
  obtain ht | ht | ht := status_of_step h
  · exact .inl ht
  · exact .inr ⟨.halted, by simp only [outcome?, ht]⟩
  · obtain ⟨-, ⟨hr, -⟩ | ⟨k, hr, -⟩⟩ := faultsArePrecise s t h ht
    · exact .inr ⟨_, outcome?_of_faulted ht hr⟩
    · exact .inr ⟨_, outcome?_of_faulted ht hr⟩

/-- After any number of steps from a running state, the core is Running or the run has reached an outcome. -/
theorem running_or_outcome_of_runSteps (n : Nat) {s : State} (hs : s.status = .running) :
    (runSteps n s).status = .running ∨ ∃ o, (runSteps n s).outcome? = some o := by
  induction n generalizing s with
  | zero => exact .inl hs
  | succ n ih =>
    obtain ⟨t, ht⟩ := exists_step_of_running hs
    rw [runSteps_succ_of_step ht]
    obtain hrun | ⟨o, ho⟩ := running_or_outcome_of_step ht
    · exact ih hrun
    · exact .inr ⟨o, by rw [runSteps_of_not_running (not_running_of_outcome ho), ho]⟩

/-- Settles O42: a number of steps after which the status is not Running has reached an outcome, and a state with an outcome
is not Running. -/
theorem runEndsOrHangs : Obligations.RunEndsOrHangs := by
  intro s hs
  refine ⟨?either, ?notBoth⟩
  case either =>
    by_cases hang : Hangs s
    · exact .inl hang
    · obtain ⟨n, hn⟩ := not_forall.1 hang
      obtain ⟨o, ho⟩ := (running_or_outcome_of_runSteps n hs).resolve_left hn
      exact .inr ⟨o, _, n, rfl, ho⟩
  case notBoth =>
    rintro ⟨hang, o, t, n, rfl, ho⟩
    exact not_running_of_outcome ho (hang n)

/-- Unless Loaded, a run is refused (R116). -/
theorem startRun_of_not_loaded {s : State} (h : s.status ≠ .loaded) : ∃ r, s.startRun = .error r := by
  cases hr : s.startRun with
  | ok t => exact absurd (startRun_ok hr).1 h
  | error r => exact ⟨r, rfl⟩

/-- Settles O43: a run() that returns was accepted, and what it returns is the outcome its `n` steps reached. -/
theorem hostRunReturnsTheOutcome : Obligations.HostRunReturnsTheOutcome := by
  refine ⟨fun n s t o h => ?returned, fun n s hs => ?refused⟩
  case returned =>
    unfold hostRun at h
    cases hr : s.startRun with
    | error r => rw [hr] at h; cases h
    | ok u =>
      obtain ⟨hs, rfl⟩ := startRun_ok hr
      rw [hr] at h
      cases ho : (runSteps n { s with status := .running }).outcome? with
      | none => simp only [ho] at h; cases h
      | some p =>
        simp only [ho] at h
        cases h
        exact ⟨hs, n, rfl, ho⟩
  case refused =>
    obtain ⟨r, hr⟩ := startRun_of_not_loaded hs
    exact ⟨r, by rw [hostRun, hr]⟩

end Sys2Proof.Proofs
end

section
namespace Sys2Proof.Proofs
open Sys2Proof.Machine State

/-- Settles O44: the reset transaction answers the reset state, whose items stand at their reset values. -/
theorem resetRestoresEveryItem : Obligations.ResetRestoresEveryItem := by
  intro s
  exact ⟨rfl, reg_reset, rfl, readMem_of_mem_eq_reset rfl, rfl, rfl, rfl⟩

/-- A load that has a reason to be refused returns it and changes no state (R115). -/
theorem transact_load_of_refusal {s : State} {b : List Byte} {r : LoadRefusal}
    (h : loadRefusal? s.status b.length = some r) : transact (.load b) s = (.loadRefused r, s) :=
  transact_load_of_error (by rw [load, h])

/-- From Idle, the reason is the length's (R115). -/
theorem loadRefusal?_idle (n : Nat) : loadRefusal? .idle n = loadLengthRefusal? n := if_pos rfl

/-- Outside Idle, the reason is the status's, or the length's where that is bad too (R115, assumption 6). -/
theorem loadRefusal?_of_not_idle {st : Status} (h : st ≠ .idle) (n : Nat) :
    loadRefusal? st n = some .notIdle ∨ (loadLengthRefusal? n ≠ none ∧ loadRefusal? st n = loadLengthRefusal? n) := by
  rw [loadRefusal?, if_neg h]
  cases hn : loadLengthRefusal? n with
  | none => exact .inl rfl
  | some r =>
    by_cases hp : Config.loadRefusalPrefersStatus n = true
    · exact .inl (if_pos hp)
    · exact .inr ⟨Option.some_ne_none r, if_neg hp⟩

/-- No bytes are too few (R115). -/
theorem loadLengthRefusal?_zero : loadLengthRefusal? 0 = some .emptyProgram := rfl

/-- More than 256 bytes are too many (R115). -/
theorem loadLengthRefusal?_of_large {n : Nat} (h : 256 < n) : loadLengthRefusal? n = some .programTooLarge := by
  rw [loadLengthRefusal?, if_neg (by omega), if_pos h]

/-- 1 to 256 bytes are a good length (R114). -/
theorem loadLengthRefusal?_of_good {n : Nat} (h1 : 1 ≤ n) (h2 : n ≤ 256) : loadLengthRefusal? n = none := by
  rw [loadLengthRefusal?, if_neg (by omega), if_neg (not_lt.2 h2)]

/-- Outside Idle, a load of a bad length is refused for its status or for its length (R115). -/
theorem transact_load_of_not_idle {s : State} {b : List Byte} {r : LoadRefusal} (hs : s.status ≠ .idle)
    (hr : loadLengthRefusal? b.length = some r) :
    transact (.load b) s = (.loadRefused .notIdle, s) ∨ transact (.load b) s = (.loadRefused r, s) :=
  (loadRefusal?_of_not_idle hs b.length).imp transact_load_of_refusal fun ⟨_, h⟩ => transact_load_of_refusal (h.trans hr)

/-- Settles O46: the length's reason and the status's, in `loadRefusal?`'s own cases. -/
theorem loadRefusals : Obligations.LoadRefusals := by
  intro s b
  refine ⟨fun hs hb => ?empty, fun hs hb => ?large, fun hs h1 h2 => ?notIdle, fun hs hb => ?notIdleEmpty,
    fun hs hb => ?notIdleLarge⟩
  case empty =>
    subst hb
    exact transact_load_of_refusal (by rw [hs]; exact loadLengthRefusal?_zero)
  case large => exact transact_load_of_refusal (by rw [hs, loadRefusal?_idle, loadLengthRefusal?_of_large hb])
  case notIdle =>
    have hgood := loadLengthRefusal?_of_good h1 h2
    exact transact_load_of_refusal ((loadRefusal?_of_not_idle hs b.length).resolve_right fun h => h.1 hgood)
  case notIdleEmpty =>
    subst hb
    exact transact_load_of_not_idle hs loadLengthRefusal?_zero
  case notIdleLarge => exact transact_load_of_not_idle hs (loadLengthRefusal?_of_large hb)

/-- Settles O47: `startRun` answers by the status alone. -/
theorem runTransaction : Obligations.RunTransaction := by
  intro s
  refine ⟨fun hs => ?loaded, fun hs => ?idle, fun hs => ?halted, fun hs => ?faulted, fun hs => ?running⟩
  case loaded => exact transact_run_of_ok (by simp only [startRun, hs])
  case idle => exact transact_run_of_error (by simp only [startRun, hs])
  case halted => exact transact_run_of_error (by simp only [startRun, hs])
  case faulted => exact transact_run_of_error (by simp only [startRun, hs])
  case running => exact ⟨_, transact_run_of_error (by simp only [startRun, hs]; rfl)⟩

/-- Settles O48: a read answers from the state and leaves it, by the definition of the transaction. -/
theorem hostReadsChangeNothing : Obligations.HostReadsChangeNothing := by
  intro s
  refine ⟨?debugRead, ?readStatus, ?readFault, ?readOutput⟩
  case debugRead => rfl
  case readStatus => rfl
  case readFault => rfl
  case readOutput => rfl

/-- Settles O49: the two tables are read off their definitions; without a record the code is 0. -/
theorem statusAndFaultCodes : Obligations.StatusAndFaultCodes := by
  refine ⟨rfl, rfl, rfl, rfl, rfl, rfl, rfl, rfl, rfl, fun s hnone => ?_⟩
  rw [faultCode, hnone]

end Sys2Proof.Proofs
end

section
namespace Sys2Proof.Proofs
open Sys2Proof.Machine State

/-- An address that a memory does not list reads as `MEM_INIT` (R40, R50). -/
theorem read_eq_memInit {m : Memory} {a : Nat} (h : ∀ c ∈ m, c.1 ≠ a) : m.read a = Config.memInit := by
  induction m with
  | nil => rfl
  | cons c m ih =>
    rw [Memory.read, if_neg (h c List.mem_cons_self).symm]
    exact ih fun d hd => h d (List.mem_cons_of_mem c hd)

/-- A listed cell of a memory with rising addresses is what its address reads as. -/
theorem read_of_mem {m : Memory} {c : Host.Cell} (hm : m.Pairwise fun c d => c.1 < d.1) (hc : c ∈ m) :
    m.read c.1 = c.2 := by
  induction m with
  | nil => cases hc
  | cons d m ih =>
    obtain ⟨hd, hm'⟩ := List.pairwise_cons.1 hm
    rcases List.mem_cons.1 hc with rfl | hc'
    · exact if_pos rfl
    · exact (if_neg (hd c hc').ne').trans (ih hm' hc')

/-- A canonical memory lists exactly the cells that read other than `MEM_INIT`. -/
theorem mem_iff_of_wf {m : Memory} (h : m.wf) (c : Host.Cell) :
    c ∈ m ↔ c.1 < Config.memSize ∧ m.read c.1 = c.2 ∧ c.2 ≠ Config.memInit := by
  obtain ⟨hm, hcells⟩ := h
  constructor
  · intro hc
    exact ⟨(hcells c hc).1, read_of_mem hm hc, (hcells c hc).2⟩
  · rintro ⟨-, hread, hne⟩
    have hlisted : ∃ d ∈ m, d.1 = c.1 := by
      by_contra hnone
      push Not at hnone
      exact hne (hread.symm.trans (read_eq_memInit hnone))
    obtain ⟨d, hd, hdc⟩ := hlisted
    have hcell : d = c := Prod.ext hdc (by rw [← read_of_mem hm hd, hdc, hread])
    exact hcell ▸ hd

/-- Settles O16: what a canonical memory lists is fixed by what its addresses read as, and two lists of rising addresses
with the same members are equal. -/
theorem canonicalMemoriesThatReadAlikeAreEqual : Obligations.CanonicalMemoriesThatReadAlikeAreEqual := by
  intro m n hm hn hread
  have hsame (c : Host.Cell) : c ∈ m ↔ c ∈ n := by
    rw [mem_iff_of_wf hm, mem_iff_of_wf hn]
    exact and_congr_right fun hc => by rw [hread c.1 hc]
  have hperm : m.Perm n :=
    (List.perm_ext_iff_of_nodup (hm.1.imp fun h he => h.ne (congrArg Prod.fst he))
      (hn.1.imp fun h he => h.ne (congrArg Prod.fst he))).2 hsame
  exact hperm.eq_of_pairwise (fun _ _ _ _ hcd hdc => absurd hcd hdc.not_gt) hm.1 hn.1

end Sys2Proof.Proofs
end

section
namespace Sys2Proof.Proofs
open Sys2Proof.Machine State

/-- A table word that the decoder reads as an instruction is one it answers for the word's three bytes. -/
theorem decode_of_decodeTableWord {nbits w : Nat} {i : Instr} (h : decodeTableWord nbits w = some i) :
    decode (tableByte nbits w 0) (tableByte nbits w 1) (tableByte nbits w 2) = .ok i := by
  unfold decodeTableWord at h
  cases hd : decode (tableByte nbits w 0) (tableByte nbits w 1) (tableByte nbits w 2) with
  | error e => rw [hd] at h; cases h
  | ok j =>
    rw [hd] at h
    cases h
    rfl

/-- The state with a word placed at `pc` fetches and decodes the word's three bytes: they stand at the offsets 0, 1 and 2
from `pc` (R43). -/
theorem fetchDecode_withFetchWord (s : State) (nbits w : Nat) :
    (s.withFetchWord nbits w).fetchDecode =
      decode (tableByte nbits w 0) (tableByte nbits w 1) (tableByte nbits w 2) := by
  have hpc : (s.withFetchWord nbits w).pc = s.pc := placeBytes_pc s _ _
  have hread (k : Byte) : (s.withFetchWord nbits w).readMem (s.pc + k) =
      [tableByte nbits w 0, tableByte nbits w 1, tableByte nbits w 2][k.toNat]?.getD (s.readMem (s.pc + k)) := by
    refine (readMem_placeBytes s s.pc (s.pc + k) (by simp)).trans ?_
    rw [add_sub_cancel_left]
  have hop : (s.withFetchWord nbits w).readMem s.pc = tableByte nbits w 0 := by
    simpa using hread 0
  rw [fetchDecode, hpc, hop, hread 1, hread 2]
  rfl

/-- Settles O50: the placed state is Running and fetches the word's bytes; placing bytes changes memory alone. -/
theorem withFetchWordRunsTheWord : Obligations.WithFetchWordRunsTheWord := by
  intro s nbits w i h
  refine ⟨?step, ?regs, ?pc, ?out⟩
  case step =>
    exact step_of_fetchDecode_ok rfl ((fetchDecode_withFetchWord s nbits w).trans (decode_of_decodeTableWord h))
  case regs => exact placeBytes_x s _ _
  case pc => exact placeBytes_pc s _ _
  case out => exact placeBytes_out s _ _

end Sys2Proof.Proofs
end

section
namespace Sys2Proof.Proofs
open Sys2Proof.Machine State

/-- The binary digit of a bit, as a program line writes it (R72). -/
def bitDigit (bit : Bool) : Char := if bit then '1' else '0'

/-- One digit read: twice the value so far, plus the digit. -/
def readDigit (n : Nat) (c : Char) : Nat := 2 * n + (if c = '1' then 1 else 0)

/-- Reading the digit of a bit adds the bit. -/
theorem readDigit_bitDigit (n : Nat) (bit : Bool) : readDigit n (bitDigit bit) = 2 * n + bit.toNat := by
  cases bit <;> rfl

/-- A digit is `0` or `1`. -/
theorem bitDigit_eq (bit : Bool) : bitDigit bit = '0' ∨ bitDigit bit = '1' := by
  cases bit
  · exact .inl rfl
  · exact .inr rfl

/-- Reading the low `w` bits of a number, most significant first, after `acc` gives `acc` shifted by `w` and the number
modulo `2 ^ w`. -/
theorem foldl_readDigit (v w acc : Nat) :
    ((List.range w).reverse.map fun k => bitDigit (v.testBit k)).foldl readDigit acc = acc * 2 ^ w + v % 2 ^ w := by
  induction w generalizing acc with
  | zero => simp [Nat.mod_one]
  | succ w ih =>
    rw [List.range_succ, List.reverse_append, List.map_append, List.foldl_append, ih]
    simp only [List.reverse_singleton, List.map_singleton, List.foldl_cons, List.foldl_nil, readDigit_bitDigit]
    rw [Nat.toNat_testBit, Nat.mod_pow_succ, pow_succ]
    ring

/-- A program line is the byte's eight digits, bit 7 first. -/
theorem byteLine_eq (b : Byte) : byteLine b = (List.range 8).reverse.map fun k => bitDigit (b.toNat.testBit k) := rfl

/-- Reading a byte's line gives the byte (R72). -/
theorem ofNat_foldl_byteLine (b : Byte) : BitVec.ofNat 8 ((byteLine b).foldl readDigit 0) = b := by
  rw [byteLine_eq, foldl_readDigit, zero_mul, zero_add, Nat.mod_eq_of_lt b.isLt, BitVec.ofNat_toNat, BitVec.setWidth_eq]

/-- Settles O51: each line is a byte's eight digits, which read back as the byte. -/
theorem programLinesSpellTheEncoding : Obligations.ProgramLinesSpellTheEncoding := by
  intro i
  refine ⟨?readBack, fun l hl => ?digits⟩
  case readBack =>
    rw [programLines, List.map_map]
    exact (List.map_congr_left fun b _ => ofNat_foldl_byteLine b).trans (List.map_id _)
  case digits =>
    obtain ⟨b, -, rfl⟩ := List.mem_map.1 hl
    refine ⟨rfl, fun c hc => ?_⟩
    obtain ⟨k, -, rfl⟩ := List.mem_map.1 (byteLine_eq b ▸ hc)
    exact bitDigit_eq _

end Sys2Proof.Proofs
end
